-- ==== Sys2Proof/Word.lean ====
section
/-! DEFINITION. The two widths of the register interface (R13, R61): a byte and a 32-bit word. -/

namespace Sys2Proof

/-- R9: width of a full register access. -/
abbrev Config.REG_BITS : Nat := 32

/-- R9: width of a data-register access. -/
abbrev Config.DATA_BITS : Nat := 8

/-- A data-register access, a Command Buffer byte, a command byte (R9 `DATA_BITS`). -/
abbrev Byte := BitVec Config.DATA_BITS

/-- A full register access (R9 `REG_BITS`). -/
abbrev Word := BitVec Config.REG_BITS

end Sys2Proof
end

