-- ==== Sys2Proof/Config.lean ====
section
/-! DEFINITION. The record of the parameters of R9 with this hardware's values, and the free values: constants with no body for what the spec leaves to the environment or leaves open. -/

namespace Sys2Proof

/-- The controller's eight registers, the "fixed register-id enum" (R39, R114): there is no ninth id. -/
inductive RegId where
  | cr | sr | dtr | drr | ssr | gier | ier | isr
deriving DecidableEq, Repr, Inhabited

/-- What a poll exhaustion does (R9 `TIMEOUT_MODE`, R126, R127). -/
inductive TimeoutMode where
  | abort | legacy
deriving DecidableEq, Repr, Inhabited

/-- Who starts when a command and the interrupt both wait at `IDLE` (R9 `ARB_ORDER`, R144). -/
inductive ArbOrder where
  | any | irqFirst | cmdFirst
deriving DecidableEq, Repr, Inhabited

/-- R9: the record of the block's parameters, one field for each literal and each mode, taken as an argument by every
definition that uses one (through `State.params` or as `p`); `Config.defaultParams` is the instance for this hardware.
No step changes it. The widths and the number of registers are types (`Config.REG_BITS`, `Config.DATA_BITS`,
`Config.NUM_REGS`), the bus addresses stay open (`Config.REG_BASE`, `Config.OFF`). See assumption 7. -/
structure Params where
  /-- `CB_SIZE`: bytes in the Command Buffer. -/
  cbSize : Nat
  /-- `WORD_BYTES`: data bytes per ReadWord or WriteWord. -/
  wordBytes : Nat
  /-- `TX_POLL_MAX`: most Status reads in one transmit-empty poll; the 14 bits of `poll` (R27). -/
  txPollMax : BitVec 14
  /-- `RX_POLL_MAX`: most Status reads in one receive-not-empty poll. -/
  rxPollMax : BitVec 14
  /-- `SS_ASSERT`: Slave-Select value that asserts chip-select 0. -/
  ssAssert : Word
  /-- `SS_DEASSERT`: Slave-Select value that deasserts all. -/
  ssDeassert : Word
  /-- `CR_ENABLE`: Control, Enable. -/
  crEnable : Word
  /-- `CR_MASTER`: Control, Master. -/
  crMaster : Word
  /-- `CR_CPHA`: Control, clock-phase select. -/
  crCpha : Word
  /-- `CR_MANUAL_SS`: Control, manual slave-select mode. -/
  crManualSs : Word
  /-- `CR_INHIBIT`: Control, Transaction-Inhibit. -/
  crInhibit : Word
  /-- `SR_RX_EMPTY`: Status bit number, receive-register-empty. -/
  srRxEmpty : Nat
  /-- `SR_TX_EMPTY`: Status bit number, transmit-register-empty. -/
  srTxEmpty : Nat
  /-- `IER_RX_READY`: Interrupt-Enable, receive-data-ready-interrupt-enable. -/
  ierRxReady : Word
  /-- `WRITE_MARKER`: set in the address byte for a write. -/
  writeMarker : Byte
  /-- `DUMMY_BYTE`: byte transmitted while reading. -/
  dummyByte : Byte
  /-- `OP_EN`: the command byte `e` (R94). -/
  opEn : Byte
  /-- `OP_DIS`: the command byte `d`. -/
  opDis : Byte
  /-- `OP_RD`: the command byte `r`. -/
  opRd : Byte
  /-- `OP_WR`: the command byte `w`. -/
  opWr : Byte
  /-- `TIMEOUT_MODE`: what a poll exhaustion does. -/
  timeoutMode : TimeoutMode
  /-- `ARB_ORDER`: who starts when both wait. -/
  arbOrder : ArbOrder
deriving DecidableEq, Repr, Inhabited

namespace Config

/-- R9: registers of the controller the block can name. -/
abbrev NUM_REGS : Nat := 8

/-- R9: the values this hardware takes. -/
def defaultParams : Params :=
  { cbSize := 128, wordBytes := 4, txPollMax := 1000#14, rxPollMax := 10000#14,
    ssAssert := 0xFFFFFFFE#32, ssDeassert := 0xFFFFFFFF#32,
    crEnable := 0x002#32, crMaster := 0x004#32, crCpha := 0x010#32, crManualSs := 0x080#32, crInhibit := 0x100#32,
    srRxEmpty := 0, srTxEmpty := 2, ierRxReady := 0x010#32, writeMarker := 0x80#8, dummyByte := 0x00#8,
    opEn := 0x65#8, opDis := 0x64#8, opRd := 0x72#8, opWr := 0x77#8,
    timeoutMode := .abort, arbOrder := .any }

/-- R9, R75: the bus address map is OPEN (D3); no rule uses it, so it stays opaque. See assumption 12. -/
opaque REG_BASE : Nat
/-- R9, R75: the bus offset of each register, OPEN (D3). See assumption 12. -/
opaque OFF : RegId → Nat
/-- R75: the map from register id to bus address, `REG_BASE + OFF[id]`. -/
def busAddress (r : RegId) : Nat := REG_BASE + OFF r

/-- Free input (R32 b): the level `irq` at the n-th micro-step nothing else decides. See assumption 2. -/
opaque freeIrq : Nat → Bool
/-- Free choice under `ARB_ORDER = any` (R144): true lets the waiting command start. See assumption 2. -/
opaque freePick : Nat → Bool
/-- Free input (R74): the answer to a Status read. See assumption 2. -/
opaque freeStatus : Nat → Word
/-- Free input (R74): the answer to a Data-Receive read. See assumption 2. -/
opaque freeData : Nat → Byte
/-- Free value (R50, R220): the two bits of `kind` after a `Reset` event. See assumption 4. -/
opaque freeKind : Nat → BitVec 2
/-- Free value (R50, R220): `addr` after a `Reset` event. See assumption 4. -/
opaque freeAddr : Nat → Byte
/-- Free value (R50, R220): `idx` after a `Reset` event. See assumption 4. -/
opaque freeIdx : Nat → BitVec 3

end Config

/-- The parameters with this hardware's literals (R9): every literal at its default, the two poll bounds and the two
modes at any value. -/
abbrev Params.Standard (p : Params) : Prop :=
  p = { Config.defaultParams with txPollMax := p.txPollMax, rxPollMax := p.rxPollMax, timeoutMode := p.timeoutMode, arbOrder := p.arbOrder }

end Sys2Proof
end

