-- ==== Sys2Proof/Syntax.lean ====
section
/-! DEFINITION. The command set (R2, R91): one constructor for each row of spec/opcode_table.json. -/

namespace Sys2Proof

/-- The transaction kinds (R2, R25). -/
inductive Kind where
  | en | dis | rd | wr
deriving DecidableEq, Repr, Inhabited

/-- A command (R91, R93). `trail` is the bytes after the significant part: they are loaded into the Command
Buffer, counted in `cb_len` and otherwise ignored (R93). See assumption 11. -/
inductive Instr where
  /-- `e`, EnableInterrupt (R170). -/
  | en (trail : List Byte)
  /-- `d`, DisableInterrupt (R171). -/
  | dis (trail : List Byte)
  /-- `r` + address, ReadWord (R161). -/
  | rd (a : Byte) (trail : List Byte)
  /-- `w` + address + the four payload bytes at offsets 2 to 5, WriteWord (R162). -/
  | wr (a p0 p1 p2 p3 : Byte) (trail : List Byte)
deriving DecidableEq, Repr

/-- The kind of a command (R94). -/
def Instr.kind : Instr → Kind
  | .en _ => .en
  | .dis _ => .dis
  | .rd _ _ => .rd
  | .wr _ _ _ _ _ _ => .wr

/-- The length `L` of a command's byte string: its significant part (R93) and its trailing bytes. -/
def Instr.length : Instr → Nat
  | .en t => 1 + t.length
  | .dis t => 1 + t.length
  | .rd _ t => 2 + t.length
  | .wr _ _ _ _ _ t => 6 + t.length

end Sys2Proof
end

