-- ==== Sys2Proof/WellFormed.lean ====
section
/-! DEFINITION. The one check a command's syntax needs: it fits the Command Buffer (R90, R192). Every byte value of
every field is legal (R95, R96). -/

namespace Sys2Proof

/-- R90: "a byte string up to 128 bytes" (`CB_SIZE`). -/
abbrev Instr.WellFormed (p : Params) (i : Instr) : Prop := i.length ≤ p.cbSize

end Sys2Proof
end

