-- ==== Sys2Proof/Decode.lean ====
section
/-! DEFINITION. Decoding a command's byte string (R90 to R97, R103), total and rejecting by name; then the encoder,
from the same formats (R91), and the words of the opcode table as byte strings. -/

namespace Sys2Proof

/-- Why a byte string is no command. -/
inductive Reject where
  /-- `L > 128` (R103 step 1): the command is not taken. -/
  | tooLong
  /-- `L = 0` (R97 b): there is no opcode. -/
  | empty
  /-- byte 0 is none of the four opcodes (R97 a). -/
  | unknownOpcode
  /-- `r` with `L < 2` or `w` with `L < 6` (R97 b). -/
  | short
deriving DecidableEq, Repr

/-- R103 steps 3 to 5, on a non-empty string: byte 0 decides (R94, all 8 bits, exact), then the length. -/
def decodeAfterOpcode (p : Params) (op : Byte) (rest : List Byte) : Except Reject Instr :=
  if op = p.opEn then .ok (.en rest)
  else if op = p.opDis then .ok (.dis rest)
  else if op = p.opRd then
    match rest with
    | a :: trail => .ok (.rd a trail)
    | [] => .error .short
  else if op = p.opWr then
    match rest with
    | a :: p0 :: p1 :: p2 :: p3 :: trail => .ok (.wr a p0 p1 p2 p3 trail)
    | _ => .error .short
  else .error .unknownOpcode

/-- R103: the decode procedure, in full. -/
def decode (p : Params) (bytes : List Byte) : Except Reject Instr :=
  if bytes.length > p.cbSize then .error .tooLong
  else
    match bytes with
    | [] => .error .empty
    | op :: rest => decodeAfterOpcode p op rest

/-- R91: a command's byte string, byte 0 first. -/
def encode (p : Params) : Instr → List Byte
  | .en t => p.opEn :: t
  | .dis t => p.opDis :: t
  | .rd a t => p.opRd :: a :: t
  | .wr a p0 p1 p2 p3 t => p.opWr :: a :: p0 :: p1 :: p2 :: p3 :: t

/-- R93: the length of the significant part, decided by the opcode alone (1 where there is no such opcode). -/
def significantLength (p : Params) (op : Byte) : Nat :=
  if op = p.opRd then 2 else if op = p.opWr then 6 else 1

/-- Byte `k` of a table word, whose bits are numbered from the first byte's bit 0 up. -/
def tableByte (w k : Nat) : Byte := BitVec.ofNat 8 (w >>> (8 * k))

/-- The byte string of a table row's word: its `nbits` bits, and operand bytes of zero up to the significant
length where the row gives an operand no bits. See assumption 14. -/
def tableBytes (nbits w : Nat) : List Byte :=
  let held := w % 2 ^ nbits
  (List.range (max (nbits / 8) (significantLength Config.defaultParams (tableByte held 0)))).map (tableByte held)

/-- The command this decoder reads from a table row's word. -/
def decodeTableWord (nbits w : Nat) : Option Instr :=
  (decode Config.defaultParams (tableBytes nbits w)).toOption

end Sys2Proof
end

