-- ==== Sys2Proof/Machine/State.lean ====
section
/-! DEFINITION. The state of the machine as plain data: the block's tuple of R20, the record of the controller's
registers, the parameters of the run, the inputs to come and the outputs so far; and the state after reset (R50). -/

namespace Sys2Proof.Machine

/-- The sequencer's position, 23 labels (R21). -/
inductive Label where
  | idle
  | cfgIer | cfgSsr | cfgCr
  | adrDtr | adrSsr | adrCr | adrPtx | adrPrx | adrDrr
  | datDtr | datCr | datPtx | datPrx | datDrr
  | rstCr | rstSsr | rstIer
  | ienIer
  | irqDis | irqDrr | irqEn | irqAck
deriving DecidableEq, Repr

/-- Result and fault codes (R190); 5 to 7 are never produced (U13), so they have no constructor. -/
inductive Code where
  | ok | protocolFault | bufferFault | transferTimeout | concurrencyViolation
deriving DecidableEq, Repr

/-- The immediate response of a `Submit` (R140): `ACCEPTED` is no code (R190). -/
inductive Response where
  | accepted
  | raised (c : Code)
deriving DecidableEq, Repr

/-- Output events (R34, R15). -/
inductive Event where
  /-- `MemWrite(id, 4, v)` (R111). -/
  | w32 (r : RegId) (v : Word)
  /-- `MemWrite(id, 1, v)` (R113). -/
  | w8 (r : RegId) (v : Byte)
  /-- `MemRead(id, 4)` and its answer (R110). -/
  | r32 (r : RegId) (v : Word)
  /-- `MemRead(id, 1)` and its answer (R112). -/
  | r8 (r : RegId) (v : Byte)
  /-- a transaction completed (R34 b). -/
  | done (c : Code)
  /-- the handler's acknowledge (R180). -/
  | irqAck
  /-- the answer to a `Submit` (R34 d). -/
  | response (r : Response)
  /-- what a `ReadBack` returned: `cb_len` and the bytes (R166). -/
  | readBack (len : BitVec 8) (bytes : List Byte)
deriving DecidableEq, Repr

/-- The environment's inputs to one micro-step (R32 b, c; R74): the level `irq`, the choice under
`ARB_ORDER = any`, and what a Status or a Data-Receive read made in this step answers. -/
structure Draw where
  irq : Bool
  pick : Bool
  sr : Word
  drr : Byte
deriving DecidableEq, Repr

/-- What happens next (R15, R201): a host event, a micro-step with its inputs, or a program line. -/
inductive Input where
  /-- host event `Submit(L, bytes)`, `L` the list's length (R140). -/
  | submit (bytes : List Byte)
  /-- host event `ReadBack` (R166). -/
  | readBack
  /-- host event `Reset` (R220). -/
  | reset
  /-- one micro-step of the block, with these inputs. -/
  | tick (u : Draw)
  /-- a line of a program (R104): submitted when the block is not busy, and run to its `done`. -/
  | command (bytes : List Byte)
deriving DecidableEq, Repr

/-- ENVIRONMENT, not the block's state (R20, R49): what each of the controller's eight registers (R39) was last
seen to hold on the register interface, a write's value or a read's answer. No step reads it. See assumption 5. -/
structure Controller where
  cr : Word
  sr : Word
  dtr : Byte
  drr : Byte
  ssr : Word
  gier : Word
  ier : Word
  isr : Word
deriving DecidableEq, Repr

/-- The Command Buffer: cells in one canonical form (`Memory.wf`). -/
abbrev Memory := List Host.Cell

/-- The model's own stop. No fault of the spec stops the machine: R190's are return codes (R202). -/
inductive Fault where
  /-- Raised by `microStep` in a state that R51 excludes, where no rule says what the label does: a transfer label
  with `kind` `EN` or `DIS`, `IEN_IER` with `RD` or `WR`, or a data label with `idx` outside its range (R26).
  Safe: no run reaches it. See assumption 9. -/
  | noRule
deriving DecidableEq, Repr

/-- Why the model refuses an instruction. -/
inductive Refusal where
  /-- An arm of `exec` without a meaning (none is left). Safe: nothing can be proved of it. -/
  | notModelled (mnemonic : String)
deriving DecidableEq, Repr

structure State where
  /-- `step` (R21). -/
  step : Label
  /-- `busy` (R24). -/
  busy : Bool
  /-- `kind` (R25). -/
  kind : Kind
  /-- `addr` (R25). -/
  addr : Byte
  /-- `idx` (R26). -/
  idx : BitVec 3
  /-- `poll` (R27). -/
  poll : BitVec 14
  /-- `tmo` (R30). -/
  tmo : Bool
  /-- `CB` (R29). -/
  cb : Memory
  /-- `cb_len` (R28). -/
  cbLen : BitVec 8
  /-- `status` (R31). -/
  status : Code
  /-- The controller's registers as last seen (R39; assumption 5). -/
  ctl : Controller
  /-- The parameters of the run (R9; assumption 7). -/
  params : Params
  /-- The inputs to come, first first (R32; assumption 2). -/
  inputs : List Input
  /-- How many free draws were taken (assumption 2). -/
  drawn : Nat
  /-- The output events so far, newest first (R34; assumption 6). -/
  trace : List Event
deriving DecidableEq, Repr

/-- R50: the machine right after reset, with the values assumption 4 names for `kind`, `addr`, `idx`, which the spec
leaves unspecified and which nothing reads before they are written, and those of assumption 5 for the record of
the controller's registers. -/
def State.reset : State :=
  { step := .idle, busy := false, kind := .en, addr := 0#8, idx := 0#3, poll := 0#14, tmo := false,
    cb := [], cbLen := 0#8, status := .ok,
    ctl := { cr := 0#32, sr := 0#32, dtr := 0#8, drr := 0#8, ssr := 0#32, gier := 0#32, ier := 0#32, isr := 0#32 },
    params := Config.defaultParams, inputs := [], drawn := 0, trace := [] }

end Sys2Proof.Machine
end

