-- ==== Sys2Proof/Machine/Ops.lean ====
section
/-! DEFINITION. The named operations every step is made of: the Command Buffer, the four register accessors, the
output events, the draws, raising a fault, completing a transaction, entering and leaving the handler. -/

namespace Sys2Proof.Machine

/-! ### The Command Buffer (R29, R62) -/

/-- What an unlisted byte of the Command Buffer reads as: its reset contents (R50). -/
def Memory.unlisted : Byte := 0x00#8

/-- The canonical form: addresses strictly rising, no entry equal to `unlisted`. -/
abbrev Memory.wf (m : Memory) : Prop :=
  m.Pairwise (fun x y => x.1 < y.1) ∧ ∀ c ∈ m, c.2 ≠ Memory.unlisted

/-- Every listed address is inside a buffer of `size` bytes (R62, R9 `CB_SIZE`). -/
abbrev Memory.within (size : Nat) (m : Memory) : Prop := ∀ c ∈ m, c.1 < size

/-- `CB[a]`. -/
def Memory.read : Memory → Nat → Byte
  | [], _ => Memory.unlisted
  | (k, v) :: m, a => if k = a then v else Memory.read m a

/-- A cell in front of `m`, unless it holds what an unlisted address reads as. -/
def Memory.put (a : Nat) (b : Byte) (m : Memory) : Memory :=
  if b = Memory.unlisted then m else (a, b) :: m

/-- `CB[a] <- b`, keeping the canonical form. -/
def Memory.write : Memory → Nat → Byte → Memory
  | [], a, b => Memory.put a b []
  | (k, v) :: m, a, b =>
    if a < k then Memory.put a b ((k, v) :: m)
    else if a = k then Memory.put a b m
    else (k, v) :: Memory.write m a b

/-- `CB[a + k] <- bytes[k]` for every `k` (R142). -/
def Memory.load (m : Memory) (a : Nat) : List Byte → Memory
  | [] => m
  | b :: bs => Memory.load (Memory.write m a b) (a + 1) bs

/-- The first `n` bytes, `CB[0 .. n-1]`. -/
def Memory.first (m : Memory) (n : Nat) : List Byte := (List.range n).map (Memory.read m)

/-- R33: `rd_data`, the bytes `CB[0]`, `CB[1]`, `CB[2]`, `CB[3]` (as many as `WORD_BYTES`). -/
def State.rdData (s : State) : List Byte := Memory.first s.cb s.params.wordBytes

/-- R33, R66: `RD_WORD = CB[3] ++ CB[2] ++ CB[1] ++ CB[0]`. -/
def State.rdWord (s : State) : Word :=
  Memory.read s.cb 3 ++ Memory.read s.cb 2 ++ Memory.read s.cb 1 ++ Memory.read s.cb 0

/-! ### Output events (R34) -/

/-- `emit e` (R14). -/
def State.emit (s : State) (e : Event) : State := { s with trace := e :: s.trace }

/-- Whether an event is a register access (R116). -/
def Event.isAccess : Event → Bool
  | .w32 _ _ | .w8 _ _ | .r32 _ _ | .r8 _ _ => true
  | .done _ | .irqAck | .response _ | .readBack _ _ => false

/-- R31, R190: the 3-bit number of a code. -/
def Code.bits : Code → BitVec 3
  | .ok => 0
  | .protocolFault => 1
  | .bufferFault => 2
  | .transferTimeout => 3
  | .concurrencyViolation => 4

/-! ### The register interface (R110 to R113) -/

/-- R39: the number of a register id. -/
def regNumber : RegId → Fin Config.NUM_REGS
  | .cr => 0 | .sr => 1 | .dtr => 2 | .drr => 3 | .ssr => 4 | .gier => 5 | .ier => 6 | .isr => 7

/-- The record after a 32-bit access; the 8-bit registers are never accessed at this width (R115). -/
def Controller.seen32 (c : Controller) (r : RegId) (v : Word) : Controller :=
  match r with
  | .cr => { c with cr := v }
  | .sr => { c with sr := v }
  | .ssr => { c with ssr := v }
  | .gier => { c with gier := v }
  | .ier => { c with ier := v }
  | .isr => { c with isr := v }
  | .dtr => c
  | .drr => c

/-- The record after an 8-bit access; only the data registers are accessed at this width (R115). -/
def Controller.seen8 (c : Controller) (r : RegId) (v : Byte) : Controller :=
  match r with
  | .dtr => { c with dtr := v }
  | .drr => { c with drr := v }
  | .cr => c
  | .sr => c
  | .ssr => c
  | .gier => c
  | .ier => c
  | .isr => c

/-- R111: `MemWrite(r, 4, v)`, one write access of 32 bits. -/
def State.memWrite32 (s : State) (r : RegId) (v : Word) : State :=
  { s with ctl := s.ctl.seen32 r v, trace := .w32 r v :: s.trace }

/-- R113: `MemWrite(r, 1, v)`, one write access of 8 bits. -/
def State.memWrite8 (s : State) (r : RegId) (v : Byte) : State :=
  { s with ctl := s.ctl.seen8 r v, trace := .w8 r v :: s.trace }

/-- R110: `MemRead(r, 4)`, one read access of 32 bits that answers `v`, an input of the step (R74). -/
def State.memRead32 (s : State) (r : RegId) (v : Word) : State :=
  { s with ctl := s.ctl.seen32 r v, trace := .r32 r v :: s.trace }

/-- R112: `MemRead(r, 1)`, one read access of 8 bits that answers `v`, an input of the step (R74). -/
def State.memRead8 (s : State) (r : RegId) (v : Byte) : State :=
  { s with ctl := s.ctl.seen8 r v, trace := .r8 r v :: s.trace }

/-! ### Free draws -/

/-- The inputs of a micro-step that nothing in State decides: opaque constants at a counter (assumption 2). -/
def freeDraw (n : Nat) : Draw :=
  { irq := Config.freeIrq n, pick := Config.freePick n, sr := Config.freeStatus n, drr := Config.freeData n }

/-- R25: `kind` as its two bits. -/
def kindOfBits (b : BitVec 2) : Kind :=
  if b = 0#2 then .en else if b = 1#2 then .dis else if b = 2#2 then .rd else .wr

/-! ### Faults, completion, the handler -/

/-- R14, R190: `raise` a fault of a `Submit`: the response carries the code, and nothing else happens. -/
def State.raise (s : State) (c : Code) : State := s.emit (.response (.raised c))

/-- R160, R172: the completing step: `status <- code`, `busy <- 0`, `emit done(code)`, `step <- IDLE`. -/
def State.complete (s : State) (c : Code) : State :=
  { s with status := c, busy := false, step := .idle, trace := .done c :: s.trace }

/-- R202: taking the receive interrupt: `step <- IRQ_DIS`; nothing is saved, no mode changes, no vector is read. -/
def State.enterHandler (s : State) : State := { s with step := .irqDis }

/-- R180, R203: the handler's return: `emit irq_ack`, `step <- IDLE`; nothing is restored. -/
def State.leaveHandler (s : State) : State := { s with step := .idle, trace := .irqAck :: s.trace }

end Sys2Proof.Machine
end

