-- ==== Sys2Proof/Machine/HostEvents.lean ====
section
/-! DEFINITION. The three host events: `Submit` (R140 to R143), `ReadBack` (R166) and `Reset` (R220). -/

namespace Sys2Proof.Machine

/-- R142: the Command Buffer load: `CB[k] <- bytes[k]`, `cb_len <- L`. -/
def State.loadCommand (s : State) (bytes : List Byte) : State :=
  { s with cb := Memory.load s.cb 0 bytes, cbLen := BitVec.ofNat 8 bytes.length }

/-- R143: acceptance latches the command: `kind`, `addr <- CB[1]`, `busy <- 1`, `tmo <- 0`. -/
def State.accept (s : State) (k : Kind) : State :=
  { s with kind := k, addr := Memory.read s.cb 1, busy := true, tmo := false,
           trace := .response .accepted :: s.trace }

/-- R141: `Submit`, evaluated in the order of the rule (R200). -/
def submit (bytes : List Byte) (s : State) : State :=
  if s.busy then s.raise .concurrencyViolation
  else
    match decode s.params bytes with
    | .error .tooLong => { s with status := .bufferFault }.raise .bufferFault
    | .error .empty => { s.loadCommand bytes with status := .protocolFault }.raise .protocolFault
    | .error .unknownOpcode => { s.loadCommand bytes with status := .protocolFault }.raise .protocolFault
    | .error .short => { s.loadCommand bytes with status := .protocolFault }.raise .protocolFault
    | .ok i => (s.loadCommand bytes).accept i.kind

/-- R166: `ReadBack` returns `cb_len` and `CB[0 .. cb_len-1]`, and changes no state. -/
def readBack (s : State) : State :=
  s.emit (.readBack s.cbLen (Memory.first s.cb s.cbLen.toNat))

/-- R220, R221, R223: `Reset`: the values of R50; `kind`, `addr` and `idx` are unspecified (assumption 4); no
access, no event; whatever ran is abandoned. -/
def resetBlock (s : State) : State :=
  { s with step := .idle, busy := false, poll := 0#14, tmo := false, cb := [], cbLen := 0#8, status := .ok,
           kind := kindOfBits (Config.freeKind s.drawn), addr := Config.freeAddr s.drawn,
           idx := Config.freeIdx s.drawn, drawn := s.drawn + 1 }

end Sys2Proof.Machine
end

