-- ==== Sys2Proof/Machine/Operands.lean ====
section
/-! DEFINITION. The constant words and the operands of the micro-steps (R98 to R102, R149 to R157), and the owner of a
label (R22). -/

namespace Sys2Proof.Machine

/-- R98: the Control word of the configure and restore steps: Enable, Master, manual-select and
Transaction-Inhibit, and clock-phase for a read. Asked of `RD` and `WR` only (`State.hasRule`). -/
def cwCfg (p : Params) (k : Kind) : Word :=
  p.crEnable ||| p.crMaster ||| p.crManualSs ||| p.crInhibit ||| (if k = .rd then p.crCpha else 0#32)

/-- R99: `CW_RUN(kind) = CW_CFG(kind) & ~0x100`. -/
def cwRun (p : Params) (k : Kind) : Word := cwCfg p k &&& ~~~p.crInhibit

/-- R100: Interrupt-Enable with bit 4 set and every other bit 0. -/
def ierOn (p : Params) : Word := p.ierRxReady

/-- R100: Interrupt-Enable, every bit 0. -/
def ierOff : Word := 0#32

/-- R101: the address byte: raw for a read, with bit 7 set for a write. -/
def abyte (p : Params) (k : Kind) (addr : Byte) : Byte :=
  if k = .wr then addr ||| p.writeMarker else addr

/-- R153, R154: the byte a data exchange transmits: `CB[idx]` for a write, the dummy byte for a read. -/
def dataByte (s : State) : Byte :=
  if s.kind = .wr then Memory.read s.cb s.idx.toNat else s.params.dummyByte

/-- R152: the buffer position of the first data byte: 3 for a read, 5 for a write, with `WORD_BYTES` = 4. -/
def firstIdx (p : Params) (k : Kind) : BitVec 3 :=
  if k = .rd then BitVec.ofNat 3 (p.wordBytes - 1) else BitVec.ofNat 3 (p.wordBytes + 1)

/-- R157: the buffer position of the last data byte. -/
def lastIdx (k : Kind) : BitVec 3 := if k = .rd then 0#3 else 2#3

/-- R145: the first label of a transaction. -/
def firstLabel : Kind → Label
  | .en => .ienIer
  | .dis => .ienIer
  | .rd => .cfgIer
  | .wr => .cfgIer

/-- R172: what `IEN_IER` writes. -/
def ienWord (p : Params) (k : Kind) : Word := if k = .en then ierOn p else ierOff

/-- Whether a kind moves a word over the bus (R145, R161, R162). -/
def movesWord : Kind → Bool
  | .en => false
  | .dis => false
  | .rd => true
  | .wr => true

/-- R26, R51: the positions `idx` takes in the data labels of a kind: 0 to 3 for a read, 2 to 5 for a write, with
`WORD_BYTES` = 4. -/
def idxInRange (p : Params) (k : Kind) (i : BitVec 3) : Bool :=
  match k with
  | .rd => i.toNat < p.wordBytes
  | .wr => 2 ≤ i.toNat && i.toNat < p.wordBytes + 2
  | .en => false
  | .dis => false

/-- The owners of the register interface (R22). -/
inductive Owner where
  | none | txn | irq
deriving DecidableEq, Repr

/-- R22: the owner as a function of `step`. -/
def Label.owner : Label → Owner
  | .idle => .none
  | .irqDis | .irqDrr | .irqEn | .irqAck => .irq
  | .cfgIer | .cfgSsr | .cfgCr | .adrDtr | .adrSsr | .adrCr | .adrPtx | .adrPrx | .adrDrr
  | .datDtr | .datCr | .datPtx | .datPrx | .datDrr | .rstCr | .rstSsr | .rstIer | .ienIer => .txn

/-- R21: the data labels. -/
def Label.isData : Label → Bool
  | .datDtr | .datCr | .datPtx | .datPrx | .datDrr => true
  | .idle | .cfgIer | .cfgSsr | .cfgCr | .adrDtr | .adrSsr | .adrCr | .adrPtx | .adrPrx | .adrDrr
  | .rstCr | .rstSsr | .rstIer | .ienIer | .irqDis | .irqDrr | .irqEn | .irqAck => false

/-- Whether the rules say what the label does in this state: R51's relation of `step` to `kind` and `idx`. Where it
is false the model stops (`Fault.noRule`, assumption 9). -/
def State.hasRule (s : State) : Bool :=
  match s.step with
  | .idle | .irqDis | .irqDrr | .irqEn | .irqAck => true
  | .ienIer => !movesWord s.kind
  | .cfgIer | .cfgSsr | .cfgCr | .adrDtr | .adrSsr | .adrCr | .adrPtx | .adrPrx | .adrDrr
  | .rstCr | .rstSsr | .rstIer => movesWord s.kind
  | .datDtr | .datCr | .datPtx | .datPrx | .datDrr => idxInRange s.params s.kind s.idx

end Sys2Proof.Machine
end

