-- ==== Sys2Proof/Machine/InterruptControl.lean ====
section
/-! DEFINITION. The interrupt-enable step of `EN` and `DIS` (R172) and the four steps of the Receive-Interrupt Handler
(R177 to R180). -/

namespace Sys2Proof.Machine

/-- R172: `IEN_IER`, the whole of `EN` and `DIS`. -/
def ienIer (s : State) : State := (s.memWrite32 .ier (ienWord s.params s.kind)).complete .ok

/-- R177: `IRQ_DIS`. -/
def irqDis (s : State) : State := { s.memWrite32 .ier ierOff with step := .irqDrr }

/-- R178: `IRQ_DRR`: one byte is drained and discarded. -/
def irqDrr (u : Draw) (s : State) : State := { s.memRead8 .drr u.drr with step := .irqEn }

/-- R179: `IRQ_EN`. -/
def irqEn (s : State) : State := { s.memWrite32 .ier (ierOn s.params) with step := .irqAck }

/-- R180: `IRQ_ACK`. -/
def irqAck (s : State) : State := s.leaveHandler

end Sys2Proof.Machine
end

