-- ==== Sys2Proof/Machine/Flags.lean ====
section
/-! DEFINITION. The two Status bits the block tests (R41), the arbitration's choice (R144) and the completion code
(R160). -/

namespace Sys2Proof.Machine

/-- R41, R123: Status bit 2, the transmit register is empty. -/
def srTxEmpty (p : Params) (v : Word) : Bool := v.getLsbD p.srTxEmpty

/-- R41, R124: Status bit 0 clear, the receive register holds an unread byte. -/
def srRxNotEmpty (p : Params) (v : Word) : Bool := !v.getLsbD p.srRxEmpty

/-- R144: whether the waiting command starts, given that one waits: always when `irq = 0`; when `irq = 1`, as
`ARB_ORDER` says, and under `any` as the free choice says. -/
def commandWins (a : ArbOrder) (u : Draw) : Bool :=
  match u.irq, a with
  | false, _ => true
  | true, .irqFirst => false
  | true, .cmdFirst => true
  | true, .any => u.pick

/-- R160: the code a transfer completes with. -/
def completionCode (tmo : Bool) : Code := if tmo then .transferTimeout else .ok

end Sys2Proof.Machine
end

