-- ==== Sys2Proof/Machine/Transfer.lean ====
section
/-! DEFINITION. The byte exchange: the five labels `X_DTR`, `X_CR`, `X_PTX`, `X_PRX`, `X_DRR` (R120 to R127), each
given the label that follows it. -/

namespace Sys2Proof.Machine

/-- R121: `X_DTR`. -/
def xDtr (tx : Byte) (next : Label) (s : State) : State :=
  { s.memWrite8 .dtr tx with step := next }

/-- R122: `X_CR`. -/
def xCr (next : Label) (s : State) : State :=
  { s.memWrite32 .cr (cwRun s.params s.kind) with poll := 0#14, step := next }

/-- R126, R127: a poll exhausted its bound: cut short in `abort` mode, fall through in `legacy` mode. -/
def timeout (next : Label) (s : State) : State :=
  match s.params.timeoutMode with
  | .abort => { s with tmo := true, poll := 0#14, step := .rstCr }
  | .legacy => { s with poll := 0#14, step := next }

/-- R123, R124: one iteration of a poll loop, after its Status read: the tested bit passes, or the read just made
was the last the bound allows, or the loop goes on. -/
def pollOnce (passes : Bool) (bound : BitVec 14) (next : Label) (s : State) : State :=
  if passes then { s with poll := 0#14, step := next }
  else if s.poll + 1#14 = bound then timeout next s
  else { s with poll := s.poll + 1#14 }

/-- R123: `X_PTX`, the transmit-empty poll. -/
def xPtx (next : Label) (u : Draw) (s : State) : State :=
  pollOnce (srTxEmpty s.params u.sr) s.params.txPollMax next (s.memRead32 .sr u.sr)

/-- R124: `X_PRX`, the receive-not-empty poll. -/
def xPrx (next : Label) (u : Draw) (s : State) : State :=
  pollOnce (srRxNotEmpty s.params u.sr) s.params.rxPollMax next (s.memRead32 .sr u.sr)

/-- R125, R152: `ADR_DRR`: the byte is discarded, `idx` takes its first value. -/
def adrDrr (u : Draw) (s : State) : State :=
  { s.memRead8 .drr u.drr with idx := firstIdx s.params s.kind, step := .datDtr }

/-- R155, R156: where a data exchange's received byte goes: `CB[idx]` for a read, nowhere for a write. -/
def storeReceived (b : Byte) (s : State) : State :=
  if s.kind = .rd then { s with cb := Memory.write s.cb s.idx.toNat b } else s

/-- R157: the index progression at the end of a data exchange. -/
def nextDataByte (s : State) : State :=
  if s.idx = lastIdx s.kind then { s with step := .rstCr }
  else { s with idx := s.idx - 1#3, step := .datDtr }

/-- R125, R155 to R157: `DAT_DRR`. -/
def datDrr (u : Draw) (s : State) : State :=
  nextDataByte (storeReceived u.drr (s.memRead8 .drr u.drr))

end Sys2Proof.Machine
end

