-- ==== Sys2Proof/Machine/Sequencer.lean ====
section
/-! DEFINITION. The sequencer: arbitration at `IDLE` (R144), the configure, address and restore steps (R146 to R160),
and the micro-step of every label (R167). -/

namespace Sys2Proof.Machine

/-- R144: the arbitration at `IDLE`. With nothing waiting the block is quiescent, and stays as it is (assumption
8). -/
def idleStep (u : Draw) (s : State) : State :=
  if s.busy then
    if commandWins s.params.arbOrder u then { s with step := firstLabel s.kind } else s.enterHandler
  else if u.irq then s.enterHandler
  else s

/-- R146: `CFG_IER`. -/
def cfgIer (s : State) : State := { s.memWrite32 .ier ierOff with step := .cfgSsr }

/-- R147: `CFG_SSR`. -/
def cfgSsr (s : State) : State := { s.memWrite32 .ssr s.params.ssDeassert with step := .cfgCr }

/-- R148: `CFG_CR`. -/
def cfgCr (s : State) : State := { s.memWrite32 .cr (cwCfg s.params s.kind) with step := .adrDtr }

/-- R150: `ADR_SSR`. -/
def adrSsr (s : State) : State := { s.memWrite32 .ssr s.params.ssAssert with step := .adrCr }

/-- R158: `RST_CR`. -/
def rstCr (s : State) : State := { s.memWrite32 .cr (cwCfg s.params s.kind) with step := .rstSsr }

/-- R159: `RST_SSR`. -/
def rstSsr (s : State) : State := { s.memWrite32 .ssr s.params.ssDeassert with step := .rstIer }

/-- R160: the length a completed transfer leaves in `cb_len`: 4 (`WORD_BYTES`) after a ReadWord that completed `OK`. -/
def completedLen (s : State) : BitVec 8 :=
  if s.kind = .rd ∧ completionCode s.tmo = .ok then BitVec.ofNat 8 s.params.wordBytes else s.cbLen

/-- R160: `RST_IER` and completion. -/
def rstIer (s : State) : State :=
  { (s.memWrite32 .ier (ierOn s.params)).complete (completionCode s.tmo) with cbLen := completedLen s, tmo := false }

/-- R167: what each label does, with the inputs of the step. -/
def labelStep (u : Draw) (s : State) : State :=
  match s.step with
  | .idle => idleStep u s
  | .ienIer => ienIer s
  | .cfgIer => cfgIer s
  | .cfgSsr => cfgSsr s
  | .cfgCr => cfgCr s
  | .adrDtr => xDtr (abyte s.params s.kind s.addr) .adrSsr s
  | .adrSsr => adrSsr s
  | .adrCr => xCr .adrPtx s
  | .adrPtx => xPtx .adrPrx u s
  | .adrPrx => xPrx .adrDrr u s
  | .adrDrr => adrDrr u s
  | .datDtr => xDtr (dataByte s) .datCr s
  | .datCr => xCr .datPtx s
  | .datPtx => xPtx .datPrx u s
  | .datPrx => xPrx .datDrr u s
  | .datDrr => datDrr u s
  | .rstCr => rstCr s
  | .rstSsr => rstSsr s
  | .rstIer => rstIer s
  | .irqDis => irqDis s
  | .irqDrr => irqDrr u s
  | .irqEn => irqEn s
  | .irqAck => irqAck s

/-- One micro-step of the block (R15, R22). -/
def microStep (u : Draw) (s : State) : Host.Outcome State Fault Refusal :=
  if s.hasRule then .next (labelStep u s) else .fault .noRule

end Sys2Proof.Machine
end

