-- ==== Sys2Proof/Machine/Run.lean ====
section
/-! DEFINITION. One step of R15, taken as `inputs` says (R201), and the run of a program line to its `done` (R104). -/

namespace Sys2Proof.Machine

/-- A micro-step whose inputs nothing in State decides: the environment answers freely (assumption 2). -/
def freeMicroStep (s : State) : Host.Outcome State Fault Refusal :=
  microStep (freeDraw s.drawn) { s with drawn := s.drawn + 1 }

/-- R15, R201: one step: the host event or the micro-step that stands first in `inputs`. With nothing there, or
with a program line that waits for the block, it is a micro-step with free inputs. -/
def advance (s : State) : Host.Outcome State Fault Refusal :=
  match s.inputs with
  | [] => freeMicroStep s
  | .command _ :: _ => freeMicroStep s
  | .tick u :: rest => microStep u { s with inputs := rest }
  | .submit bytes :: rest => .next (submit bytes { s with inputs := rest })
  | .readBack :: rest => .next (readBack { s with inputs := rest })
  | .reset :: rest => .next (resetBlock { s with inputs := rest })

/-- Steps until the block is no longer busy, at most `n` of them. -/
def drive : Nat → State → State
  | 0, s => s
  | n + 1, s =>
    if s.busy then
      match advance s with
      | .next t => drive n t
      | .fault _ => s
      | .refused _ => s
    else s

/-- R164, R129: the most micro-steps from the first label of a transfer to its `done`. -/
def transferBudget (p : Params) : Nat :=
  let exchange := p.txPollMax.toNat + p.rxPollMax.toNat + 1
  3 + (3 + exchange) + p.wordBytes * (2 + exchange) + 3

/-- The steps a program line is given: a handler run in progress (4), the `IDLE` step (1), the transfer, and one
for each input to come, which may be a host event or a handler's step. See assumption 1. -/
def commandBudget (s : State) : Nat := 5 + transferBudget s.params + s.inputs.length

/-- R104: a program line: the `Submit`, and where it is accepted the block's steps to the `done`. Where the block is
busy, the `Submit` is refused and no step follows. -/
def runCommand (bytes : List Byte) (s : State) : Host.Outcome State Fault Refusal :=
  .next (if s.busy then submit bytes s else drive (commandBudget s) (submit bytes s))

/-- The program line that stands first and may start: the block is not busy (R104, R230). -/
def fetch (s : State) : Option (List Byte × State) :=
  match s.inputs with
  | .command bytes :: rest => if s.busy then none else some (bytes, { s with inputs := rest })
  | .tick _ :: _ => none
  | .submit _ :: _ => none
  | .readBack :: _ => none
  | .reset :: _ => none
  | [] => none

/-- The state in which a command is the next to be fetched. A transaction in flight is abandoned, since a command
starts only where none is in flight. See assumption 3. -/
def State.withCommand (s : State) (bytes : List Byte) : State :=
  { s with busy := false, step := if s.busy then .idle else s.step, inputs := .command bytes :: s.inputs }

end Sys2Proof.Machine
end

