-- ==== Sys2Proof/Machine/Commands.lean ====
section
/-! DEFINITION. The meanings of the four commands: each is its byte string submitted (R141) and, where accepted, the
micro-steps of its kind run to the completing step. -/

namespace Sys2Proof.Machine

/-- R170: `EN`: accepted, started from `IDLE`, one micro-step `IEN_IER` that writes `IER_ON`. -/
def execEn (trail : List Byte) (s : State) : Host.Outcome State Fault Refusal :=
  runCommand (encode s.params (.en trail)) s

/-- R171: `DIS`: as `EN`, with `IER_OFF`. -/
def execDis (trail : List Byte) (s : State) : Host.Outcome State Fault Refusal :=
  runCommand (encode s.params (.dis trail)) s

/-- R161: `RD a`: `CFG_IER, CFG_SSR, CFG_CR`, the address exchange with `a`, four data exchanges with dummy bytes
whose answers go to `CB[3..0]`, `RST_CR, RST_SSR, RST_IER`. -/
def execRd (a : Byte) (trail : List Byte) (s : State) : Host.Outcome State Fault Refusal :=
  runCommand (encode s.params (.rd a trail)) s

/-- R162: `WR a, p0, p1, p2, p3`: the same labels, the address exchange with `a | 0x80`, four data exchanges that
send `CB[5..2]` and discard their answers. -/
def execWr (a p0 p1 p2 p3 : Byte) (trail : List Byte) (s : State) : Host.Outcome State Fault Refusal :=
  runCommand (encode s.params (.wr a p0 p1 p2 p3 trail)) s

end Sys2Proof.Machine
end

