-- ==== Sys2Proof/Machine/Dispatch.lean ====
section
/-! DEFINITION. The dispatch: one arm per constructor of Instr. -/

namespace Sys2Proof.Machine

def exec (i : Instr) (s : State) : Host.Outcome State Fault Refusal :=
  match i with
  | .en trail => Sys2Proof.Machine.execEn trail s
  | .dis trail => Sys2Proof.Machine.execDis trail s
  | .rd a trail => Sys2Proof.Machine.execRd a trail s
  | .wr a p0 p1 p2 p3 trail => Sys2Proof.Machine.execWr a p0 p1 p2 p3 trail s

end Sys2Proof.Machine
end

