-- ==== Sys2Proof/Machine/Step.lean ====
section
/-! DEFINITION. The machine's step: a program line that may start is fetched, decoded and executed; everything else is
one step of R15. -/

namespace Sys2Proof.Machine

/-- A program line that may start runs as its instruction, or is refused by the `Submit` where its bytes are no
command (R191, R192); otherwise one host event or micro-step. -/
def step (s : State) : Host.Outcome State Fault Refusal :=
  match fetch s with
  | some (bytes, t) =>
    match decode t.params bytes with
    | .ok i => exec i t
    | .error _ => .next (submit bytes t)
  | none => advance s

/-- `s` with the instruction of a table row's word as the very next step. See assumption 3. -/
def State.withFetchWord (s : State) (nbits w : Nat) : State := s.withCommand (tableBytes nbits w)

end Sys2Proof.Machine
end

