-- ==== Sys2Proof/Safety.lean ====
section
/-! DEFINITION. What counts as a good state: R51's relation of the sequencer's position to the rest of the state, the
canonical Command Buffer, and the bus discipline of R168, R226 and R227. -/

namespace Sys2Proof.Machine

/-- What the block's registers ask of its parameters: a poll bound of 0 would never be met by a count that starts at 1
(R123, R124, R128: a loop makes at least one read); the 3 bits of `idx` (R26) hold the positions of one to four data
bytes; the buffer holds the longest command (R91) and its length fits the 8 bits of `cb_len` (R28); the four opcodes
are told apart (R94). -/
abbrev paramsWf (p : Params) : Prop :=
  p.txPollMax ≠ 0#14 ∧ p.rxPollMax ≠ 0#14 ∧ 1 ≤ p.wordBytes ∧ p.wordBytes ≤ 4 ∧ 6 ≤ p.cbSize ∧ p.cbSize ≤ 255 ∧
  [p.opEn, p.opDis, p.opRd, p.opWr].Nodup

/-- R51, the parts that relate `step` to `busy`, `kind`, `idx`, `poll` and `tmo`; and R30: `tmo` is never set in
`legacy` mode. -/
def State.positionOk (s : State) : Bool :=
  match s.step with
  | .idle | .irqDis | .irqDrr | .irqEn | .irqAck => !s.tmo
  | .ienIer => s.busy && !s.tmo && !movesWord s.kind
  | .cfgIer | .cfgSsr | .cfgCr | .adrDtr | .adrSsr | .adrCr | .adrDrr => s.busy && !s.tmo && movesWord s.kind
  | .adrPtx => s.busy && !s.tmo && movesWord s.kind && decide (s.poll < s.params.txPollMax)
  | .adrPrx => s.busy && !s.tmo && movesWord s.kind && decide (s.poll < s.params.rxPollMax)
  | .datDtr | .datCr | .datDrr => s.busy && !s.tmo && idxInRange s.params s.kind s.idx
  | .datPtx => s.busy && !s.tmo && idxInRange s.params s.kind s.idx && decide (s.poll < s.params.txPollMax)
  | .datPrx => s.busy && !s.tmo && idxInRange s.params s.kind s.idx && decide (s.poll < s.params.rxPollMax)
  | .rstCr | .rstSsr | .rstIer =>
    s.busy && movesWord s.kind && (!s.tmo || decide (s.params.timeoutMode = .abort))

/-- The invariant of R51, with the canonical form of the Command Buffer and its size (R62). -/
abbrev State.Inv (s : State) : Prop :=
  s.positionOk = true ∧ Memory.wf s.cb ∧ Memory.within s.params.cbSize s.cb ∧ s.cbLen.toNat ≤ s.params.cbSize ∧
  paramsWf s.params

/-- R168, R226, R227: what the controller's registers hold, as last written, at each label of a transfer and of the
handler. From the pulse at `ADR_CR` to the restore at `RST_CR` Transaction-Inhibit is clear and chip-select 0 asserted, with
the receive interrupt off, and the byte to be clocked is in Data-Transmit; before the pulse and after the restore
Transaction-Inhibit is set. Nothing is said of Control at `IDLE`, the configure labels, `IEN_IER` and the handler's labels:
after a `Reset` in mid-transfer it may still be as the transfer left it (R223). -/
def State.busOk (s : State) : Bool :=
  let c := s.ctl
  match s.step with
  | .idle | .cfgIer | .ienIer | .irqDis => true
  | .irqDrr | .irqEn => decide (c.ier = ierOff)
  | .irqAck => decide (c.ier = ierOn s.params)
  | .cfgSsr => decide (c.ier = ierOff)
  | .cfgCr => decide (c.ier = ierOff ∧ c.ssr = s.params.ssDeassert)
  | .adrDtr => decide (c.ier = ierOff ∧ c.ssr = s.params.ssDeassert ∧ c.cr = cwCfg s.params s.kind)
  | .adrSsr => decide (c.ier = ierOff ∧ c.ssr = s.params.ssDeassert ∧ c.cr = cwCfg s.params s.kind ∧
      c.dtr = abyte s.params s.kind s.addr)
  | .adrCr => decide (c.ier = ierOff ∧ c.ssr = s.params.ssAssert ∧ c.cr = cwCfg s.params s.kind ∧
      c.dtr = abyte s.params s.kind s.addr)
  | .adrPtx | .adrPrx | .adrDrr => decide (c.ier = ierOff ∧ c.ssr = s.params.ssAssert ∧ c.cr = cwRun s.params s.kind ∧
      c.dtr = abyte s.params s.kind s.addr)
  | .datDtr | .rstCr => decide (c.ier = ierOff ∧ c.ssr = s.params.ssAssert ∧ c.cr = cwRun s.params s.kind)
  | .datCr | .datPtx | .datPrx | .datDrr => decide (c.ier = ierOff ∧ c.ssr = s.params.ssAssert ∧
      c.cr = cwRun s.params s.kind ∧ c.dtr = dataByte s)
  | .rstSsr => decide (c.ier = ierOff ∧ c.ssr = s.params.ssAssert ∧ c.cr = cwCfg s.params s.kind)
  | .rstIer => decide (c.ier = ierOff ∧ c.ssr = s.params.ssDeassert ∧ c.cr = cwCfg s.params s.kind)

/-- The invariant of R51 together with the bus discipline. -/
abbrev State.BusInv (s : State) : Prop := s.Inv ∧ s.busOk = true

/-! ### The terms the claims use -/

/-- The machine is at label `l` and its next step is a micro-step with the inputs `u`. -/
abbrev State.At (s : State) (l : Label) (u : Draw) (rest : List Input) : Prop :=
  s.step = l ∧ s.inputs = .tick u :: rest

/-- The command in hand is a ReadWord or a WriteWord. -/
abbrev State.Moves (s : State) : Prop := s.kind = .rd ∨ s.kind = .wr

/-- R26: the command in hand moves a word, and `idx` is a position of one of its data bytes: 0 to 3 for a read, 2 to 5
for a write, with `WORD_BYTES` = 4. -/
abbrev State.InData (s : State) : Prop :=
  (s.kind = .rd ∧ s.idx.toNat < s.params.wordBytes) ∨
  (s.kind = .wr ∧ 2 ≤ s.idx.toNat ∧ s.idx.toNat < s.params.wordBytes + 2)

/-- The block can take a command and start it at once: nothing is in flight, `IDLE`, and the arbitration's first step
lets the command go (`irq = 0`, or `ARB_ORDER` and its choice say so, R144). -/
abbrev State.Ready (s : State) (u : Draw) : Prop :=
  s.busy = false ∧ s.step = .idle ∧
    (u.irq = false ∨ s.params.arbOrder = .cmdFirst ∨ (s.params.arbOrder = .any ∧ u.pick = true))

/-- The inputs of one exchange that reaches its Data-Receive read (R120): those of its writes, the failing answers and
the last answer of each poll, and those of that read. -/
structure Exchange where
  writes : List Draw
  txFails : List Draw
  txLast : Draw
  rxFails : List Draw
  rxLast : Draw
  data : Draw
deriving DecidableEq, Repr

/-- R123, R124, R127: the exchange makes `n` writes; each poll's answers fail its test (bit 2 set, bit 0 clear) but for
the last one, which passes it within the bound, or in `legacy` mode is the last the bound allows. -/
abbrev Exchange.Completes (e : Exchange) (p : Params) (n : Nat) : Prop :=
  e.writes.length = n ∧
  (∀ u ∈ e.txFails, u.sr.getLsbD 2 = false) ∧ e.txFails.length < p.txPollMax.toNat ∧
  (e.txLast.sr.getLsbD 2 = true ∨ (p.timeoutMode = .legacy ∧ e.txFails.length + 1 = p.txPollMax.toNat)) ∧
  (∀ u ∈ e.rxFails, u.sr.getLsbD 0 = true) ∧ e.rxFails.length < p.rxPollMax.toNat ∧
  (e.rxLast.sr.getLsbD 0 = false ∨ (p.timeoutMode = .legacy ∧ e.rxFails.length + 1 = p.rxPollMax.toNat))

/-- The inputs of the exchange's micro-steps, in order. -/
def Exchange.draws (e : Exchange) : List Draw :=
  e.writes ++ (e.txFails ++ e.txLast :: (e.rxFails ++ [e.rxLast, e.data]))

/-- The reads of the exchange, in order: the Status reads of both polls, then Data-Receive. -/
def Exchange.reads (e : Exchange) : List Event :=
  (e.txFails ++ e.txLast :: (e.rxFails ++ [e.rxLast])).map (fun u => Event.r32 .sr u.sr) ++ [.r8 .drr e.data.drr]

/-- The inputs of an exchange that times out (R126): in its transmit poll (`receive = none`), or in its receive poll
after a passing transmit poll. -/
structure CutExchange where
  writes : List Draw
  txFails : List Draw
  receive : Option (Draw × List Draw)
deriving DecidableEq, Repr

/-- R123, R124, R128: the poll that is cut fails exactly as often as its bound. -/
abbrev CutExchange.TimesOut (e : CutExchange) (p : Params) (n : Nat) : Prop :=
  e.writes.length = n ∧ (∀ u ∈ e.txFails, u.sr.getLsbD 2 = false) ∧
  (e.receive = none → e.txFails.length = p.txPollMax.toNat) ∧
  (∀ r ∈ e.receive, e.txFails.length < p.txPollMax.toNat ∧ r.1.sr.getLsbD 2 = true ∧
    (∀ u ∈ r.2, u.sr.getLsbD 0 = true) ∧ r.2.length = p.rxPollMax.toNat)

/-- The inputs of the receive poll's steps of a cut exchange, after the passing transmit poll. -/
def CutExchange.receiveDraws (e : CutExchange) : List Draw :=
  match e.receive with
  | none => []
  | some r => r.1 :: r.2

/-- The inputs of the cut exchange's micro-steps, in order. -/
def CutExchange.draws (e : CutExchange) : List Draw := e.writes ++ (e.txFails ++ e.receiveDraws)

/-- The reads of the cut exchange, in order: Status reads only (R126). -/
def CutExchange.reads (e : CutExchange) : List Event :=
  (e.txFails ++ e.receiveDraws).map (fun u => Event.r32 .sr u.sr)

/-- The inputs of a transfer's steps (R161, R163): the `IDLE` step, the configure steps, the exchanges that complete
(the first is the address exchange), then the exchange that times out, if one does, and the restore steps. -/
structure Transfer where
  start : Draw
  configure : List Draw
  exchanges : List Exchange
  cut : Option CutExchange
  restore : List Draw
deriving DecidableEq, Repr

/-- The number of writes of exchange number `j`: the address exchange (0) has the chip-select write besides (R151). -/
def exchangeWriteCount (j : Nat) : Nat := if j = 0 then 3 else 2

/-- The parts every transfer has: three configure steps, exchanges that complete, three restore steps. -/
abbrev Transfer.Shape (x : Transfer) (p : Params) : Prop :=
  x.configure.length = 3 ∧ x.restore.length = 3 ∧
  ∀ (j : Nat) (e : Exchange), x.exchanges[j]? = some e → e.Completes p (exchangeWriteCount j)

/-- Every exchange completes: the address exchange and four data exchanges. -/
abbrev Transfer.Completes (x : Transfer) (p : Params) : Prop :=
  x.Shape p ∧ x.exchanges.length = 5 ∧ x.cut = none

/-- Exchange number `x.exchanges.length` (0 the address exchange) times out as `e` says. -/
abbrev Transfer.TimesOut (x : Transfer) (p : Params) (e : CutExchange) : Prop :=
  x.Shape p ∧ x.exchanges.length ≤ 4 ∧ x.cut = some e ∧ e.TimesOut p (exchangeWriteCount x.exchanges.length)

/-- The inputs of the exchanges, in order. -/
def exchangesDraws : List Exchange → List Draw
  | [] => []
  | e :: es => e.draws ++ exchangesDraws es

/-- The inputs of the exchange that times out, if one does. -/
def Transfer.cutDraws (x : Transfer) : List Draw :=
  match x.cut with
  | none => []
  | some e => e.draws

/-- The inputs of the transfer's steps, in order. -/
def Transfer.inputs (x : Transfer) : List Input :=
  (x.start :: (x.configure ++ (exchangesDraws x.exchanges ++ (x.cutDraws ++ x.restore)))).map Input.tick

/-- R163: the writes of exchange number `j`, given the Control word of a pulse, the address byte, and the byte each
data exchange transmits. -/
def exchangeWrites (run : Word) (ab : Byte) (tx : Nat → Byte) (j : Nat) : List Event :=
  if j = 0 then [.w8 .dtr ab, .w32 .ssr 0xFFFFFFFE#32, .w32 .cr run]
  else [.w8 .dtr (tx j), .w32 .cr run]

/-- R163: the accesses of the exchanges from number `j` on. -/
def exchangesAccesses (run : Word) (ab : Byte) (tx : Nat → Byte) : Nat → List Exchange → List Event
  | _, [] => []
  | j, e :: es => exchangeWrites run ab tx j ++ (e.reads ++ exchangesAccesses run ab tx (j + 1) es)

/-- The accesses of the exchange that times out, if one does. -/
def Transfer.cutAccesses (x : Transfer) (run : Word) (ab : Byte) (tx : Nat → Byte) : List Event :=
  match x.cut with
  | none => []
  | some e => exchangeWrites run ab tx x.exchanges.length ++ e.reads

/-- R163, R126: the access trace of a transfer, in order. -/
def Transfer.accesses (x : Transfer) (cfg run : Word) (ab : Byte) (tx : Nat → Byte) : List Event :=
  [.w32 .ier 0x00000000#32, .w32 .ssr 0xFFFFFFFF#32, .w32 .cr cfg] ++
  (exchangesAccesses run ab tx 0 x.exchanges ++ (x.cutAccesses run ab tx ++
  [.w32 .cr cfg, .w32 .ssr 0xFFFFFFFF#32, .w32 .ier 0x00000010#32]))

/-- R67, R162: the byte a WriteWord sends in data exchange `j`: `b3, b2, b1, b0`. -/
def payloadByte (b0 b1 b2 b3 : Byte) : Nat → Byte
  | 1 => b3
  | 2 => b2
  | 3 => b1
  | 4 => b0
  | _ => 0x00#8

/-- R64: the bytes put on the wire by some events, in order: the Data-Transmit writes. -/
def wireBytes : List Event → List Byte
  | [] => []
  | .w8 .dtr v :: es => v :: wireBytes es
  | _ :: es => wireBytes es

/-- R40, R44, R46, R48: the register accesses the block may make. -/
def legalAccess : Event → Bool
  | .w32 .cr v => v = 0x186#32 ∨ v = 0x196#32 ∨ v = 0x086#32 ∨ v = 0x096#32
  | .w32 .ssr v => v = 0xFFFFFFFE#32 ∨ v = 0xFFFFFFFF#32
  | .w32 .ier v => v = 0x00000010#32 ∨ v = 0x00000000#32
  | .w32 _ _ => false
  | .w8 .dtr _ => true
  | .w8 _ _ => false
  | .r32 .sr _ => true
  | .r32 _ _ => false
  | .r8 .drr _ => true
  | .r8 _ _ => false
  | .done _ => true
  | .irqAck => true
  | .response _ => true
  | .readBack _ _ => true

end Sys2Proof.Machine
end

