-- ==== Sys2Proof/Certificates/Slice0/Obligations.lean ====
section
/-! DEFINITION. The statements for the provers. Each says which rule of spec/ it formalises, or that it rests on a
choice of the model. A statement that names this hardware's numbers speaks of parameters with its literals
(`Params.Standard`: R9's defaults, whatever the poll bounds and the modes); the others hold for any (assumption 7).
`rest` is whatever inputs come after the ones a statement speaks of; traces are newest first (assumption 6). -/

open Sys2Proof Sys2Proof.Machine

/-! ### Reset -/

/-- R50's values of the block's own state in State.reset (`kind`, `addr`, `idx`: assumption 4, not claimed here), and R9's
parameters of this hardware. -/
def Obligations.ResetStateHoldsTheSpecifiedValues : Prop :=
  State.reset.step = .idle ∧ State.reset.busy = false ∧ State.reset.poll = 0#14 ∧ State.reset.tmo = false ∧
  (∀ k, Memory.read State.reset.cb k = 0x00#8) ∧ State.reset.cbLen = 0#8 ∧ State.reset.status = .ok ∧
  State.reset.params =
    { cbSize := 128, wordBytes := 4, txPollMax := 1000#14, rxPollMax := 10000#14,
      ssAssert := 0xFFFFFFFE#32, ssDeassert := 0xFFFFFFFF#32,
      crEnable := 0x002#32, crMaster := 0x004#32, crCpha := 0x010#32, crManualSs := 0x080#32, crInhibit := 0x100#32,
      srRxEmpty := 0, srTxEmpty := 2, ierRxReady := 0x010#32, writeMarker := 0x80#8, dummyByte := 0x00#8,
      opEn := 0x65#8, opDis := 0x64#8, opRd := 0x72#8, opWr := 0x77#8, timeoutMode := .abort, arbOrder := .any } ∧
  State.reset.trace = []

/-- R220, R221: the `Reset` event at any step: the values of R50, no register access and no event; `kind`, `addr` and
`idx` are unspecified, so nothing is said of theirs. -/
def Obligations.ResetEventAbandonsWhateverRuns : Prop :=
  ∀ (s : State) (rest : List Input), s.inputs = .reset :: rest →
    ∃ k a i, step s = .next { s with step := .idle, busy := false, poll := 0#14, tmo := false, cb := [], cbLen := 0#8, status := .ok, kind := k, addr := a, idx := i, inputs := rest, drawn := s.drawn + 1 } ∧
      ∀ n, Memory.read [] n = 0x00#8

/-! ### Encoding -/

/-- R90 to R97, R103: the decoder accepts exactly the byte strings of the well-formed commands, each as that command,
whatever four distinct bytes the opcodes are and whatever the buffer's size. -/
def Obligations.DecodeAcceptsExactlyTheEncodings : Prop :=
  ∀ (p : Params) (bytes : List Byte) (i : Instr), [p.opEn, p.opDis, p.opRd, p.opWr].Nodup →
    (decode p bytes = .ok i ↔ i.WellFormed p ∧ encode p i = bytes)

/-- R103, R97, R94: the decode procedure's refusals, by name and in order. -/
def Obligations.DecodeRefusesByName : Prop :=
  ∀ p : Params, p.Standard →
    (∀ bytes : List Byte, 128 < bytes.length → decode p bytes = .error .tooLong) ∧
    decode p [] = .error .empty ∧
    (∀ (op : Byte) (r : List Byte), r.length < 128 → op ≠ 0x65#8 → op ≠ 0x64#8 → op ≠ 0x72#8 → op ≠ 0x77#8 →
      decode p (op :: r) = .error .unknownOpcode) ∧
    decode p [0x72#8] = .error .short ∧
    (∀ r : List Byte, r.length < 5 → decode p (0x77#8 :: r) = .error .short)

/-- R91, R94: words written out from the formats: `e`, `d`, `r` + address, `w` + address + payload, trailing bytes,
and upper-case `R`, which is no command. -/
def Obligations.WordsOfEachFormatDecode : Prop :=
  ∀ p : Params, p.Standard →
    decode p [0b01100101#8] = .ok (.en []) ∧ decode p [0b01100100#8] = .ok (.dis []) ∧
    decode p [0b01110010#8, 0b00000101#8] = .ok (.rd 0x05#8 []) ∧
    decode p [0b01110111#8, 0b00000101#8, 0b00010001#8, 0b00100010#8, 0b00110011#8, 0b01000100#8] =
      .ok (.wr 0x05#8 0x11#8 0x22#8 0x33#8 0x44#8 []) ∧
    decode p [0b01110010#8, 0b00000101#8, 0b10011001#8] = .ok (.rd 0x05#8 [0x99#8]) ∧
    decode p [0b01010010#8, 0b00000101#8] = .error .unknownOpcode

/-- R10, R98 to R101: the constant words and the address byte. -/
def Obligations.ConstantWordsAreAsDerived : Prop :=
  ∀ p : Params, p.Standard →
    cwCfg p .wr = 0x00000186#32 ∧ cwCfg p .rd = 0x00000196#32 ∧ cwRun p .wr = 0x00000086#32 ∧ cwRun p .rd = 0x00000096#32 ∧
    ierOff = 0x00000000#32 ∧ ierOn p = 0x00000010#32 ∧
    ∀ a : Byte, abyte p .rd a = a ∧ abyte p .wr a = a ||| 0x80#8

/-! ### The step -/

/-- A step runs the decoded instruction (R104; assumptions 1 and 3): a program line that may start is decoded and
executed, and a table row's word placed with `withFetchWord` is the next instruction. -/
def Obligations.StepRunsTheDecodedCommand : Prop :=
  (∀ (s : State) (bytes : List Byte) (rest : List Input) (i : Instr), s.inputs = .command bytes :: rest →
    s.busy = false → decode s.params bytes = .ok i → step s = exec i { s with inputs := rest }) ∧
  (∀ (s : State) (nbits w : Nat) (i : Instr), s.params.Standard → decodeTableWord nbits w = some i →
    step (s.withFetchWord nbits w) = exec i { s with busy := false, step := if s.busy then .idle else s.step })

/-- R74 and assumption 2: where `inputs` is empty the step is the micro-step of some answers of the environment. -/
def Obligations.UnscriptedStepIsAStepOfSomeInputs : Prop :=
  ∀ s : State, s.inputs = [] → ∃ u : Draw, step s = step { s with inputs := [.tick u], drawn := s.drawn + 1 }

/-- R51 and assumption 9: a micro-step stops exactly where no rule says what the label does. -/
def Obligations.MicroStepStopsExactlyWhereNoRuleSpeaks : Prop :=
  ∀ (s : State) (u : Draw) (rest : List Input), s.inputs = .tick u :: rest →
    (step s = .fault .noRule ↔
      (s.step = .ienIer ∧ s.Moves) ∨
      (s.step.isData = true ∧ ¬ s.InData) ∨
      (s.step.owner = .txn ∧ s.step ≠ .ienIer ∧ s.step.isData = false ∧ ¬ s.Moves))

/-- Assumption 1 (R15, R104): a command's meaning is made of R15's steps: its `Submit` and then steps of the
machine. -/
def Obligations.CommandIsItsSubmitAndSteps : Prop :=
  ∀ (s : State) (i : Instr), s.busy = false →
    ∃ k, exec i s = Sys2Proof.core.run k { s with inputs := .submit (encode s.params i) :: s.inputs }

/-! ### Invariants -/

/-- R51 holds of the state after reset. -/
def Obligations.InvariantHoldsAfterReset : Prop := State.reset.Inv

/-- R51: its invariants, the canonical Command Buffer among them, are true after a `Reset` event in whatever state it
comes, and kept by every step. -/
def Obligations.InvariantKeptByEveryStep : Prop :=
  (∀ (s t : State) (rest : List Input), s.inputs = .reset :: rest → paramsWf s.params → step s = .next t → t.Inv) ∧
  (∀ s t : State, s.Inv → step s = .next t → t.Inv)

/-- R167: no step of a state within the invariant is a fault or a refusal. -/
def Obligations.MachineNeverStops : Prop :=
  ∀ s : State, s.Inv → ∃ t, step s = .next t

/-- R167: outside `IDLE` a micro-step is always enabled and does something: the label or the poll count changes. -/
def Obligations.NoLabelIsStuck : Prop :=
  ∀ (s : State) (u : Draw) (rest : List Input), s.Inv → s.inputs = .tick u :: rest → s.step ≠ .idle →
    ∃ t, step s = .next t ∧ (t.step ≠ s.step ∨ t.poll ≠ s.poll)

/-- The bus discipline holds of the state after reset. -/
def Obligations.BusDisciplineHoldsAfterReset : Prop := State.reset.BusInv

/-- R168, R226, R227: every step keeps the bus discipline of `State.busOk`. -/
def Obligations.BusDisciplineKeptByEveryStep : Prop :=
  ∀ s t : State, s.BusInv → step s = .next t → t.BusInv

/-- R168, R174, R226: a transfer ends with Transaction-Inhibit set, chip-select deasserted and the receive interrupt
enabled, timed out or not. -/
def Obligations.TransferEndsWithTheBusIdle : Prop :=
  ∀ (s t : State) (u : Draw) (rest : List Input), s.params.Standard → s.BusInv →
    s.inputs = .tick u :: rest → s.busy = true → s.Moves → step s = .next t → t.busy = false →
    t.step = .idle ∧ t.ctl.cr.getLsbD 8 = true ∧ t.ctl.ssr = 0xFFFFFFFF#32 ∧ t.ctl.ier = 0x00000010#32

/-! ### What every micro-step does and does not do -/

/-- R22: every label but `IDLE` and `IRQ_ACK` makes exactly one register access, these two make none; and the owner
of the register interface as a function of `step`. -/
def Obligations.EachLabelMakesOneAccess : Prop :=
  (∀ (s t : State) (u : Draw) (rest : List Input), s.inputs = .tick u :: rest → step s = .next t →
    ∃ es, t.trace = es ++ s.trace ∧
      (es.filter Event.isAccess).length = if s.step = .idle ∨ s.step = .irqAck then 0 else 1) ∧
  (∀ l : Label, (l.owner = .none ↔ l = .idle) ∧
    (l.owner = .irq ↔ l = .irqDis ∨ l = .irqDrr ∨ l = .irqEn ∨ l = .irqAck) ∧
    (l.owner = .txn ↔ l ≠ .idle ∧ l ≠ .irqDis ∧ l ≠ .irqDrr ∧ l ≠ .irqEn ∧ l ≠ .irqAck))

/-- R48, with the values of R40, R44 and R46: every access of every step, a whole command's among them, is one of the
summary's; `GIER` and `ISR` are never accessed (R199) and the parameters never change (R9). -/
def Obligations.OnlySummaryAccessesAreMade : Prop :=
  ∀ s t : State, s.params.Standard → step s = .next t →
    (∃ es, t.trace = es ++ s.trace ∧ ∀ e ∈ es, legalAccess e = true) ∧
    t.ctl.gier = s.ctl.gier ∧ t.ctl.isr = s.ctl.isr ∧ t.params = s.params

/-- What a micro-step leaves unchanged (R25, R28, R29, R31, R81): the latched command always; the Command Buffer but
for a read's stored byte; `cb_len` but at a read's completion; `status` and `busy` but at a completing label. -/
def Obligations.MicroStepFrame : Prop :=
  ∀ (s t : State) (u : Draw) (rest : List Input), s.inputs = .tick u :: rest → step s = .next t →
    t.kind = s.kind ∧ t.addr = s.addr ∧ t.params = s.params ∧ t.inputs = rest ∧ t.drawn = s.drawn ∧
    ((s.step ≠ .datDrr ∨ s.kind ≠ .rd) → t.cb = s.cb) ∧
    ((s.step ≠ .rstIer ∨ s.kind ≠ .rd) → t.cbLen = s.cbLen) ∧
    ((s.step ≠ .rstIer ∧ s.step ≠ .ienIer) → t.status = s.status ∧ t.busy = s.busy)

/-- R175, R202: a handler label changes nothing of the block but `step`. -/
def Obligations.HandlerStepFrame : Prop :=
  ∀ (s t : State) (u : Draw) (rest : List Input), s.inputs = .tick u :: rest → s.step.owner = .irq →
    step s = .next t →
    t = { s with step := t.step, inputs := rest, ctl := t.ctl, trace := t.trace } ∧
    t.ctl.cr = s.ctl.cr ∧ t.ctl.ssr = s.ctl.ssr ∧ t.ctl.dtr = s.ctl.dtr ∧ t.ctl.sr = s.ctl.sr

/-- R176, R198, R204: outside `IDLE` the level `irq` and the arbitration's choice have no effect at all. -/
def Obligations.InterruptIsIgnoredOutsideIdle : Prop :=
  ∀ (s : State) (u v : Draw) (rest : List Input), s.step ≠ .idle → u.sr = v.sr → u.drr = v.drr →
    step { s with inputs := .tick u :: rest } = step { s with inputs := .tick v :: rest }

/-- R41: two answers that agree on Status bits 0 and 2 lead to states that differ in nothing of the block. -/
def Obligations.OnlyTwoStatusBitsAreTested : Prop :=
  ∀ (s t r : State) (u v : Draw) (rest : List Input), s.params.Standard → u.irq = v.irq → u.pick = v.pick →
    u.drr = v.drr →
    u.sr.getLsbD 0 = v.sr.getLsbD 0 → u.sr.getLsbD 2 = v.sr.getLsbD 2 →
    step { s with inputs := .tick u :: rest } = .next t → step { s with inputs := .tick v :: rest } = .next r →
    t = { r with ctl := t.ctl, trace := t.trace } ∧ t.ctl = { r.ctl with sr := t.ctl.sr }

/-! ### The host events -/

/-- R194: a `Submit` while a transaction is in flight is refused and writes no state; one while the handler runs and
nothing is in flight is not refused. -/
def Obligations.SubmitWhileBusyWritesNothing : Prop :=
  ∀ (s : State) (bytes : List Byte) (rest : List Input), s.inputs = .submit bytes :: rest →
    (s.busy = true →
      step s = .next { s with inputs := rest, trace := .response (.raised .concurrencyViolation) :: s.trace }) ∧
    (∀ i : Instr, s.step.owner = .irq → s.busy = false → decode s.params bytes = .ok i →
      ∃ t, step s = .next t ∧ t.busy = true ∧ t.trace = .response .accepted :: s.trace)

/-- R192: a `Submit` that does not fit the buffer writes `status` only; a `ReadBack` cannot fail. -/
def Obligations.OverlongSubmitWritesOnlyStatus : Prop :=
  (∀ (s : State) (bytes : List Byte) (rest : List Input), s.inputs = .submit bytes :: rest → s.busy = false →
    s.params.Standard → 128 < bytes.length →
    step s = .next { s with inputs := rest, status := .bufferFault, trace := .response (.raised .bufferFault) :: s.trace }) ∧
  (∀ (s : State) (rest : List Input), s.inputs = .readBack :: rest → ∃ t, step s = .next t)

/-- R191, R142: an empty, unrecognised or too short command is loaded and faulted, with no register access. -/
def Obligations.MalformedSubmitIsLoadedAndFaulted : Prop :=
  ∀ (s : State) (bytes : List Byte) (rest : List Input), s.inputs = .submit bytes :: rest → s.busy = false →
    s.params.Standard → Memory.wf s.cb → bytes.length ≤ 128 →
    (bytes = [] ∨ (∃ op r, bytes = op :: r ∧ op ≠ 0x65#8 ∧ op ≠ 0x64#8 ∧ op ≠ 0x72#8 ∧ op ≠ 0x77#8) ∨
      bytes = [0x72#8] ∨ ∃ r, bytes = 0x77#8 :: r ∧ r.length < 5) →
    ∃ t, step s = .next t ∧
      t = { s with inputs := rest, cb := t.cb, cbLen := BitVec.ofNat 8 bytes.length, status := .protocolFault, trace := .response (.raised .protocolFault) :: s.trace } ∧
      ∀ k, Memory.read t.cb k = (bytes[k]?).getD (Memory.read s.cb k)

/-- R142, R143: acceptance loads the command, latches `kind` and `addr`, sets `busy`, clears `tmo`, and changes
nothing else; it makes no register access. -/
def Obligations.AcceptedSubmitLoadsAndLatches : Prop :=
  ∀ (s : State) (bytes : List Byte) (rest : List Input) (i : Instr), s.inputs = .submit bytes :: rest →
    s.busy = false → Memory.wf s.cb → decode s.params bytes = .ok i →
    ∃ t, step s = .next t ∧
      t = { s with inputs := rest, cb := t.cb, cbLen := BitVec.ofNat 8 bytes.length, kind := i.kind, addr := Memory.read t.cb 1, busy := true, tmo := false, trace := .response .accepted :: s.trace } ∧
      (∀ k, Memory.read t.cb k = (bytes[k]?).getD (Memory.read s.cb k))

/-- R166: `ReadBack` returns `cb_len` and that many bytes, and changes no state; after a `Reset` it returns length 0. -/
def Obligations.ReadBackReturnsTheBuffer : Prop :=
  (∀ (s : State) (rest : List Input), s.inputs = .readBack :: rest →
    ∃ bytes, step s = .next { s with inputs := rest, trace := .readBack s.cbLen bytes :: s.trace } ∧
      bytes.length = s.cbLen.toNat ∧ ∀ k, k < s.cbLen.toNat → bytes[k]? = some (Memory.read s.cb k)) ∧
  (∀ (s : State) (rest : List Input), s.inputs = .reset :: .readBack :: rest →
    ∃ t r, step s = .next t ∧ step t = .next r ∧ r.trace = .readBack 0#8 [] :: s.trace)

/-- R33, R66: `RD_WORD` is `CB[0..3]` least significant byte first, and `rd_data` the same bytes in order. -/
def Obligations.ReadWordIsLeastSignificantByteFirst : Prop :=
  ∀ s : State, s.params.Standard →
    s.rdWord.toNat = (Memory.read s.cb 0).toNat + 2 ^ 8 * (Memory.read s.cb 1).toNat +
      2 ^ 16 * (Memory.read s.cb 2).toNat + 2 ^ 24 * (Memory.read s.cb 3).toNat ∧
    s.rdData = [Memory.read s.cb 0, Memory.read s.cb 1, Memory.read s.cb 2, Memory.read s.cb 3]

/-- In the canonical form, two Command Buffers of one size with the same contents are the same data (the model's form of
R29). -/
def Obligations.EqualBuffersAreEqualData : Prop :=
  ∀ (size : Nat) (m n : Memory), Memory.wf m → Memory.wf n → Memory.within size m → Memory.within size n →
    (∀ k, k < size → Memory.read m k = Memory.read n k) → m = n

/-! ### The labels -/

/-- R144, R145: the arbitration at `IDLE`, in every case; the quiescent block stays as it is (assumption 8). -/
def Obligations.IdleArbitrates : Prop :=
  ∀ (s : State) (u : Draw) (rest : List Input), s.At .idle u rest →
    ((s.busy = true ∧ (u.irq = false ∨ s.params.arbOrder = .cmdFirst ∨ (s.params.arbOrder = .any ∧ u.pick = true))) →
      step s = .next { s with inputs := rest, step := if s.kind = .en ∨ s.kind = .dis then .ienIer else .cfgIer }) ∧
    ((s.busy = true ∧ u.irq = true ∧ (s.params.arbOrder = .irqFirst ∨ (s.params.arbOrder = .any ∧ u.pick = false))) →
      step s = .next { s with inputs := rest, step := .irqDis }) ∧
    ((s.busy = false ∧ u.irq = true) → step s = .next { s with inputs := rest, step := .irqDis }) ∧
    ((s.busy = false ∧ u.irq = false) → step s = .next { s with inputs := rest })

/-- R146, R147, R148: the three configure steps. -/
def Obligations.ConfigureStepsWriteTheirConstants : Prop :=
  ∀ (s : State) (u : Draw) (rest : List Input), s.params.Standard → s.Moves →
    (s.At .cfgIer u rest → step s = .next { s with inputs := rest, step := .cfgSsr, ctl := { s.ctl with ier := 0x00000000#32 }, trace := .w32 .ier 0x00000000#32 :: s.trace }) ∧
    (s.At .cfgSsr u rest → step s = .next { s with inputs := rest, step := .cfgCr, ctl := { s.ctl with ssr := 0xFFFFFFFF#32 }, trace := .w32 .ssr 0xFFFFFFFF#32 :: s.trace }) ∧
    (s.At .cfgCr u rest → s.kind = .rd → step s = .next { s with inputs := rest, step := .adrDtr, ctl := { s.ctl with cr := 0x00000196#32 }, trace := .w32 .cr 0x00000196#32 :: s.trace }) ∧
    (s.At .cfgCr u rest → s.kind = .wr → step s = .next { s with inputs := rest, step := .adrDtr, ctl := { s.ctl with cr := 0x00000186#32 }, trace := .w32 .cr 0x00000186#32 :: s.trace })

/-- R149, R101, R150, R152: the address phase's own steps: the address byte (raw for a read, with bit 7 set for a write),
chip-select 0, and the discarded answer. -/
def Obligations.AddressPhaseStepsAreAsOrdered : Prop :=
  ∀ (s : State) (u : Draw) (rest : List Input), s.params.Standard →
    (s.At .adrDtr u rest → s.kind = .rd → step s = .next { s with inputs := rest, step := .adrSsr, ctl := { s.ctl with dtr := s.addr }, trace := .w8 .dtr s.addr :: s.trace }) ∧
    (s.At .adrDtr u rest → s.kind = .wr → step s = .next { s with inputs := rest, step := .adrSsr, ctl := { s.ctl with dtr := s.addr ||| 0x80#8 }, trace := .w8 .dtr (s.addr ||| 0x80#8) :: s.trace }) ∧
    (s.At .adrSsr u rest → s.Moves → step s = .next { s with inputs := rest, step := .adrCr, ctl := { s.ctl with ssr := 0xFFFFFFFE#32 }, trace := .w32 .ssr 0xFFFFFFFE#32 :: s.trace }) ∧
    (s.At .adrDrr u rest → s.kind = .rd → step s = .next { s with inputs := rest, step := .datDtr, idx := 3#3, ctl := { s.ctl with drr := u.drr }, trace := .r8 .drr u.drr :: s.trace }) ∧
    (s.At .adrDrr u rest → s.kind = .wr → step s = .next { s with inputs := rest, step := .datDtr, idx := 5#3, ctl := { s.ctl with drr := u.drr }, trace := .r8 .drr u.drr :: s.trace })

/-- R122: the pulse: Control written with Transaction-Inhibit clear, the poll count cleared. -/
def Obligations.PulseClearsInhibitAndPollCount : Prop :=
  ∀ (s : State) (u : Draw) (rest : List Input) (l next : Label) (v : Word), s.params.Standard →
    (l = .adrCr ∧ next = .adrPtx ∧ s.Moves) ∨ (l = .datCr ∧ next = .datPtx ∧ s.InData) →
    (s.kind = .rd → v = 0x00000096#32) → (s.kind = .wr → v = 0x00000086#32) → s.At l u rest →
    step s = .next { s with inputs := rest, step := next, poll := 0#14, ctl := { s.ctl with cr := v }, trace := .w32 .cr v :: s.trace }

/-- R123, R126, R127: one iteration of the transmit-empty poll, in both exchanges and both timeout modes. -/
def Obligations.TransmitPollIteration : Prop :=
  ∀ (s : State) (u : Draw) (rest : List Input) (l next : Label), s.params.Standard →
    (l = .adrPtx ∧ next = .adrPrx ∧ s.Moves) ∨ (l = .datPtx ∧ next = .datPrx ∧ s.InData) → s.At l u rest →
    let t := { s with inputs := rest, ctl := { s.ctl with sr := u.sr }, trace := .r32 .sr u.sr :: s.trace }
    (u.sr.getLsbD 2 = true → step s = .next { t with poll := 0#14, step := next }) ∧
    (u.sr.getLsbD 2 = false → s.poll + 1#14 ≠ s.params.txPollMax → step s = .next { t with poll := s.poll + 1#14 }) ∧
    (u.sr.getLsbD 2 = false → s.poll + 1#14 = s.params.txPollMax → s.params.timeoutMode = .abort →
      step s = .next { t with tmo := true, poll := 0#14, step := .rstCr }) ∧
    (u.sr.getLsbD 2 = false → s.poll + 1#14 = s.params.txPollMax → s.params.timeoutMode = .legacy →
      step s = .next { t with poll := 0#14, step := next })

/-- R124, R126, R127: one iteration of the receive-not-empty poll, in both exchanges and both timeout modes. -/
def Obligations.ReceivePollIteration : Prop :=
  ∀ (s : State) (u : Draw) (rest : List Input) (l next : Label), s.params.Standard →
    (l = .adrPrx ∧ next = .adrDrr ∧ s.Moves) ∨ (l = .datPrx ∧ next = .datDrr ∧ s.InData) → s.At l u rest →
    let t := { s with inputs := rest, ctl := { s.ctl with sr := u.sr }, trace := .r32 .sr u.sr :: s.trace }
    (u.sr.getLsbD 0 = false → step s = .next { t with poll := 0#14, step := next }) ∧
    (u.sr.getLsbD 0 = true → s.poll + 1#14 ≠ s.params.rxPollMax → step s = .next { t with poll := s.poll + 1#14 }) ∧
    (u.sr.getLsbD 0 = true → s.poll + 1#14 = s.params.rxPollMax → s.params.timeoutMode = .abort →
      step s = .next { t with tmo := true, poll := 0#14, step := .rstCr }) ∧
    (u.sr.getLsbD 0 = true → s.poll + 1#14 = s.params.rxPollMax → s.params.timeoutMode = .legacy →
      step s = .next { t with poll := 0#14, step := next })

/-- R128: a poll loop with bound `N` that starts with no reads made: it stays below `N` failing reads, succeeds with
read number `k ≤ N`, and is exhausted by read number `N`; each step makes one Status read. -/
def Obligations.PollLoopReadCount : Prop :=
  ∀ (s : State) (us : List Draw) (rest : List Input) (next : Label) (bit : Nat) (wanted : Bool) (bound : BitVec 14),
    (s.step = .adrPtx ∧ next = .adrPrx ∧ s.Moves ∧ bit = 2 ∧ wanted = true ∧ bound = s.params.txPollMax) ∨
    (s.step = .datPtx ∧ next = .datPrx ∧ s.InData ∧ bit = 2 ∧ wanted = true ∧ bound = s.params.txPollMax) ∨
    (s.step = .adrPrx ∧ next = .adrDrr ∧ s.Moves ∧ bit = 0 ∧ wanted = false ∧ bound = s.params.rxPollMax) ∨
    (s.step = .datPrx ∧ next = .datDrr ∧ s.InData ∧ bit = 0 ∧ wanted = false ∧ bound = s.params.rxPollMax) →
    s.params.Standard → s.poll = 0#14 → (∀ u ∈ us, u.sr.getLsbD bit ≠ wanted) →
    (us.length < bound.toNat → s.inputs = us.map Input.tick ++ rest →
      ∃ t, Sys2Proof.core.run us.length s = .next t ∧ t.step = s.step ∧ t.poll.toNat = us.length ∧ t.inputs = rest ∧
        t.trace = (us.map fun u => Event.r32 .sr u.sr).reverse ++ s.trace) ∧
    (∀ w : Draw, us.length < bound.toNat → w.sr.getLsbD bit = wanted → s.inputs = us.map Input.tick ++ .tick w :: rest →
      ∃ t, Sys2Proof.core.run (us.length + 1) s = .next t ∧ t.step = next ∧ t.poll = 0#14 ∧ t.tmo = s.tmo ∧
        t.inputs = rest ∧ t.trace = ((us ++ [w]).map fun u => Event.r32 .sr u.sr).reverse ++ s.trace) ∧
    (0 < us.length → us.length = bound.toNat → s.inputs = us.map Input.tick ++ rest →
      ∃ t, Sys2Proof.core.run us.length s = .next t ∧ t.poll = 0#14 ∧ t.inputs = rest ∧
        (s.params.timeoutMode = .abort → t.step = .rstCr ∧ t.tmo = true) ∧
        (s.params.timeoutMode = .legacy → t.step = next ∧ t.tmo = s.tmo) ∧
        t.trace = (us.map fun u => Event.r32 .sr u.sr).reverse ++ s.trace)

/-- R153, R154, R121: the byte a data exchange pushes: the dummy byte for a read, `CB[idx]` for a write. -/
def Obligations.DataByteIsPushed : Prop :=
  ∀ (s : State) (u : Draw) (rest : List Input) (b : Byte), s.At .datDtr u rest → s.InData → s.params.Standard →
    (s.kind = .rd → b = 0x00#8) → (s.kind = .wr → b = Memory.read s.cb s.idx.toNat) →
    step s = .next { s with inputs := rest, step := .datCr, ctl := { s.ctl with dtr := b }, trace := .w8 .dtr b :: s.trace }

/-- R155, R156, R157: the end of a data exchange: a read stores the answer at `CB[idx]`, a write discards it; the index
goes down to its last value, and then the restore begins. -/
def Obligations.DataByteIsReceived : Prop :=
  ∀ (s : State) (u : Draw) (rest : List Input), s.At .datDrr u rest → s.InData → Memory.wf s.cb →
    ∃ t, step s = .next t ∧
      t = { s with inputs := rest, cb := t.cb, step := t.step, idx := t.idx, ctl := { s.ctl with drr := u.drr }, trace := .r8 .drr u.drr :: s.trace } ∧
      (s.kind = .rd → ∀ k, Memory.read t.cb k = if k = s.idx.toNat then u.drr else Memory.read s.cb k) ∧
      (s.kind = .wr → t.cb = s.cb) ∧
      ((s.kind = .rd ∧ s.idx = 0#3) ∨ (s.kind = .wr ∧ s.idx = 2#3) → t.step = .rstCr ∧ t.idx = s.idx) ∧
      (¬ ((s.kind = .rd ∧ s.idx = 0#3) ∨ (s.kind = .wr ∧ s.idx = 2#3)) →
        t.step = .datDtr ∧ t.idx.toNat + 1 = s.idx.toNat)

/-- R158, R159, R160: the restore steps and the completion, with either code. -/
def Obligations.RestoreStepsAndCompletion : Prop :=
  ∀ (s : State) (u : Draw) (rest : List Input), s.params.Standard →
    (s.At .rstCr u rest → s.kind = .rd → step s = .next { s with inputs := rest, step := .rstSsr, ctl := { s.ctl with cr := 0x00000196#32 }, trace := .w32 .cr 0x00000196#32 :: s.trace }) ∧
    (s.At .rstCr u rest → s.kind = .wr → step s = .next { s with inputs := rest, step := .rstSsr, ctl := { s.ctl with cr := 0x00000186#32 }, trace := .w32 .cr 0x00000186#32 :: s.trace }) ∧
    (s.At .rstSsr u rest → s.Moves → step s = .next { s with inputs := rest, step := .rstIer, ctl := { s.ctl with ssr := 0xFFFFFFFF#32 }, trace := .w32 .ssr 0xFFFFFFFF#32 :: s.trace }) ∧
    (s.At .rstIer u rest → s.Moves → s.tmo = true → step s = .next { s with inputs := rest, step := .idle, busy := false, tmo := false, status := .transferTimeout, ctl := { s.ctl with ier := 0x00000010#32 }, trace := .done .transferTimeout :: .w32 .ier 0x00000010#32 :: s.trace }) ∧
    (s.At .rstIer u rest → s.kind = .rd → s.tmo = false → step s = .next { s with inputs := rest, step := .idle, busy := false, tmo := false, status := .ok, cbLen := 4#8, ctl := { s.ctl with ier := 0x00000010#32 }, trace := .done .ok :: .w32 .ier 0x00000010#32 :: s.trace }) ∧
    (s.At .rstIer u rest → s.kind = .wr → s.tmo = false → step s = .next { s with inputs := rest, step := .idle, busy := false, tmo := false, status := .ok, ctl := { s.ctl with ier := 0x00000010#32 }, trace := .done .ok :: .w32 .ier 0x00000010#32 :: s.trace })

/-- R172: `IEN_IER`, for each kind it is asked of. -/
def Obligations.InterruptEnableStep : Prop :=
  ∀ (s : State) (u : Draw) (rest : List Input) (v : Word), s.params.Standard → s.At .ienIer u rest →
    (s.kind = .en ∧ v = 0x00000010#32) ∨ (s.kind = .dis ∧ v = 0x00000000#32) →
    step s = .next { s with inputs := rest, step := .idle, busy := false, status := .ok, ctl := { s.ctl with ier := v }, trace := .done .ok :: .w32 .ier v :: s.trace }

/-! ### The handler -/

/-- R177 to R181, R203: a whole run of the handler from `IDLE`: three accesses, the acknowledge, one byte drained
whatever it is, and nothing else of the block changed. -/
def Obligations.HandlerRunDrainsOneByte : Prop :=
  ∀ (s : State) (u d1 d2 d3 d4 : Draw) (rest : List Input), s.params.Standard → s.step = .idle →
    s.inputs = [Input.tick u, .tick d1, .tick d2, .tick d3, .tick d4] ++ rest → u.irq = true →
    (s.busy = true → s.params.arbOrder = .irqFirst ∨ (s.params.arbOrder = .any ∧ u.pick = false)) →
    Sys2Proof.core.run 5 s = .next { s with inputs := rest, ctl := { s.ctl with drr := d2.drr, ier := 0x00000010#32 }, trace := [Event.irqAck, .w32 .ier 0x00000010#32, .r8 .drr d2.drr, .w32 .ier 0x00000000#32] ++ s.trace }

/-! ### The commands

A meaning runs its command from the `Submit` to the `done` in one answer of `exec`: assumption 1 (DESIGN CHOICE). -/

/-- R170: `EN`, from acceptance to `done(OK)`: one access, `W32 IER 00000010`. -/
def Obligations.EnableInterruptCompletes : Prop :=
  ∀ (s : State) (trail : List Byte) (u d : Draw) (rest : List Input), s.params.Standard →
    (Instr.en trail).WellFormed s.params → Memory.wf s.cb →
    s.Ready u → s.inputs = .tick u :: .tick d :: rest →
    ∃ t, exec (.en trail) s = .next t ∧
      t = { s with inputs := rest, kind := .en, addr := t.addr, tmo := false, cb := t.cb, cbLen := BitVec.ofNat 8 (1 + trail.length), status := .ok, ctl := { s.ctl with ier := 0x00000010#32 }, trace := [Event.done .ok, .w32 .ier 0x00000010#32, .response .accepted] ++ s.trace } ∧
      t.addr = Memory.read t.cb 1 ∧ ∀ k, Memory.read t.cb k = ((0x65#8 :: trail)[k]?).getD (Memory.read s.cb k)

/-- R171: `DIS`, from acceptance to `done(OK)`: one access, `W32 IER 00000000`. -/
def Obligations.DisableInterruptCompletes : Prop :=
  ∀ (s : State) (trail : List Byte) (u d : Draw) (rest : List Input), s.params.Standard →
    (Instr.dis trail).WellFormed s.params → Memory.wf s.cb →
    s.Ready u → s.inputs = .tick u :: .tick d :: rest →
    ∃ t, exec (.dis trail) s = .next t ∧
      t = { s with inputs := rest, kind := .dis, addr := t.addr, tmo := false, cb := t.cb, cbLen := BitVec.ofNat 8 (1 + trail.length), status := .ok, ctl := { s.ctl with ier := 0x00000000#32 }, trace := [Event.done .ok, .w32 .ier 0x00000000#32, .response .accepted] ++ s.trace } ∧
      t.addr = Memory.read t.cb 1 ∧ ∀ k, Memory.read t.cb k = ((0x64#8 :: trail)[k]?).getD (Memory.read s.cb k)

/-- R161, R163, R127: `RD a` with every poll passing within its bound, or in `legacy` mode falling through at it, whatever
the other answers: the access trace, the four answers stored at `CB[3..0]`, `cb_len = 4`, `done(OK)`, the bus idle. -/
def Obligations.ReadWordCompletes : Prop :=
  ∀ (s : State) (a : Byte) (trail : List Byte) (x : Transfer) (rest : List Input),
    s.params.Standard →
    (Instr.rd a trail).WellFormed s.params → Memory.wf s.cb → s.Ready x.start → x.Completes s.params →
    s.inputs = x.inputs ++ rest →
    ∃ t, exec (.rd a trail) s = .next t ∧
      t = { s with inputs := rest, kind := .rd, addr := a, idx := 0#3, poll := 0#14, tmo := false, cb := t.cb, cbLen := 4#8, status := .ok, ctl := t.ctl, trace := .done .ok :: (x.accesses 0x00000196#32 0x00000096#32 a (fun _ => 0x00#8)).reverse ++ (.response .accepted :: s.trace) } ∧
      (∀ (j : Nat) (e : Exchange), 1 ≤ j → x.exchanges[j]? = some e → Memory.read t.cb (4 - j) = e.data.drr) ∧
      (∀ k, 4 ≤ k → Memory.read t.cb k = ((0x72#8 :: a :: trail)[k]?).getD (Memory.read s.cb k)) ∧
      t.ctl.cr = 0x00000196#32 ∧ t.ctl.ssr = 0xFFFFFFFF#32 ∧ t.ctl.ier = 0x00000010#32 ∧
      t.ctl.gier = s.ctl.gier ∧ t.ctl.isr = s.ctl.isr

/-- R162, R163, R127: `WR a, p0, p1, p2, p3` with every poll passing within its bound, or in `legacy` mode falling through
at it: the access trace, with the payload sent last byte first, the Command Buffer as loaded, `done(OK)`, the bus
idle. -/
def Obligations.WriteWordCompletes : Prop :=
  ∀ (s : State) (a p0 p1 p2 p3 : Byte) (trail : List Byte) (x : Transfer) (rest : List Input),
    s.params.Standard →
    (Instr.wr a p0 p1 p2 p3 trail).WellFormed s.params → Memory.wf s.cb → s.Ready x.start → x.Completes s.params →
    s.inputs = x.inputs ++ rest →
    ∃ t, exec (.wr a p0 p1 p2 p3 trail) s = .next t ∧
      t = { s with inputs := rest, kind := .wr, addr := a, idx := 2#3, poll := 0#14, tmo := false, cb := t.cb, cbLen := BitVec.ofNat 8 (6 + trail.length), status := .ok, ctl := t.ctl, trace := .done .ok :: (x.accesses 0x00000186#32 0x00000086#32 (a ||| 0x80#8) (payloadByte p0 p1 p2 p3)).reverse ++ (.response .accepted :: s.trace) } ∧
      (∀ k, Memory.read t.cb k = ((0x77#8 :: a :: p0 :: p1 :: p2 :: p3 :: trail)[k]?).getD (Memory.read s.cb k)) ∧
      t.ctl.cr = 0x00000186#32 ∧ t.ctl.ssr = 0xFFFFFFFF#32 ∧ t.ctl.ier = 0x00000010#32 ∧
      t.ctl.gier = s.ctl.gier ∧ t.ctl.isr = s.ctl.isr

/-- R126, R160, R161, R193 in `abort` mode: an `RD` whose exchange number `n` (0 the address exchange) times out in either
poll: no Data-Receive read in it, the restore steps, `done(TransferTimeout)`, the answers of the data exchanges before
it stored, `cb_len` the command's length. -/
def Obligations.ReadWordTimesOut : Prop :=
  ∀ (s : State) (a : Byte) (trail : List Byte) (x : Transfer) (c : CutExchange) (rest : List Input),
    s.params.Standard →
    (Instr.rd a trail).WellFormed s.params → Memory.wf s.cb → paramsWf s.params →
    s.params.timeoutMode = .abort →
    s.Ready x.start → x.TimesOut s.params c → s.inputs = x.inputs ++ rest →
    ∃ t, exec (.rd a trail) s = .next t ∧
      t = { s with inputs := rest, kind := .rd, addr := a, idx := t.idx, poll := 0#14, tmo := false, cb := t.cb, cbLen := BitVec.ofNat 8 (2 + trail.length), status := .transferTimeout, ctl := t.ctl, trace := .done .transferTimeout :: (x.accesses 0x00000196#32 0x00000096#32 a (fun _ => 0x00#8)).reverse ++ (.response .accepted :: s.trace) } ∧
      (∀ (j : Nat) (e : Exchange), 1 ≤ j → x.exchanges[j]? = some e → Memory.read t.cb (4 - j) = e.data.drr) ∧
      (∀ k, 4 ≤ k ∨ k + x.exchanges.length < 5 →
        Memory.read t.cb k = ((0x72#8 :: a :: trail)[k]?).getD (Memory.read s.cb k)) ∧
      t.ctl.cr = 0x00000196#32 ∧ t.ctl.ssr = 0xFFFFFFFF#32 ∧ t.ctl.ier = 0x00000010#32 ∧
      t.ctl.gier = s.ctl.gier ∧ t.ctl.isr = s.ctl.isr

/-- R126, R160, R162, R193 in `abort` mode: a `WR` whose exchange number `n` times out in either poll. -/
def Obligations.WriteWordTimesOut : Prop :=
  ∀ (s : State) (a p0 p1 p2 p3 : Byte) (trail : List Byte) (x : Transfer) (c : CutExchange) (rest : List Input),
    s.params.Standard →
    (Instr.wr a p0 p1 p2 p3 trail).WellFormed s.params → Memory.wf s.cb → paramsWf s.params →
    s.params.timeoutMode = .abort →
    s.Ready x.start → x.TimesOut s.params c → s.inputs = x.inputs ++ rest →
    ∃ t, exec (.wr a p0 p1 p2 p3 trail) s = .next t ∧
      t = { s with inputs := rest, kind := .wr, addr := a, idx := t.idx, poll := 0#14, tmo := false, cb := t.cb, cbLen := BitVec.ofNat 8 (6 + trail.length), status := .transferTimeout, ctl := t.ctl, trace := .done .transferTimeout :: (x.accesses 0x00000186#32 0x00000086#32 (a ||| 0x80#8) (payloadByte p0 p1 p2 p3)).reverse ++ (.response .accepted :: s.trace) } ∧
      (∀ k, Memory.read t.cb k = ((0x77#8 :: a :: p0 :: p1 :: p2 :: p3 :: trail)[k]?).getD (Memory.read s.cb k)) ∧
      t.ctl.cr = 0x00000186#32 ∧ t.ctl.ssr = 0xFFFFFFFF#32 ∧ t.ctl.ier = 0x00000010#32 ∧
      t.ctl.gier = s.ctl.gier ∧ t.ctl.isr = s.ctl.isr

/-- R68: a WriteWord to `a`, then a ReadWord of `a` whose four data answers are, in wire order, the bytes the WriteWord put
on the wire after its address byte: the caller gets the payload back in the caller's order. -/
def Obligations.WriteThenReadIsNetNeutral : Prop :=
  ∀ (s t r : State) (a p0 p1 p2 p3 : Byte) (trail trail' : List Byte) (x y : Transfer) (es : List Event),
    s.params.Standard →
    (Instr.wr a p0 p1 p2 p3 trail).WellFormed s.params → (Instr.rd a trail').WellFormed s.params → Memory.wf s.cb →
    s.Ready x.start → x.Completes s.params → s.inputs = x.inputs ++ y.inputs →
    exec (.wr a p0 p1 p2 p3 trail) s = .next t → t.trace = es ++ s.trace →
    t.Ready y.start → y.Completes t.params → exec (.rd a trail') t = .next r →
    (y.exchanges.map fun e => e.data.drr).tail = (wireBytes es.reverse).tail →
    r.rdData = [p0, p1, p2, p3] ∧ r.status = .ok ∧ r.cbLen = 4#8

/-- R127, R30: in `legacy` mode a timeout is never reported: `tmo` stays 0 and no `done(TransferTimeout)` occurs. -/
def Obligations.LegacyModeNeverReportsATimeout : Prop :=
  ∀ s t : State, s.Inv → s.params.timeoutMode = .legacy → step s = .next t →
    t.tmo = false ∧ ∃ es, t.trace = es ++ s.trace ∧ Event.done .transferTimeout ∉ es

/-- R164, R237: a command started from `IDLE` always reaches its end, for every sequence of answers and host events, where the
arbitration lets it go: `ARB_ORDER` is `cmd_first`, or the next input is a micro-step without a request, or with one and
the choice of `any` for the command. It makes at most 55022 register accesses with four data bytes and the default bounds. -/
def Obligations.StartedCommandTerminates : Prop :=
  ∀ (s : State) (i : Instr), i.WellFormed s.params → s.Inv → s.busy = false → s.step = .idle →
    (s.params.arbOrder = .cmdFirst ∨ ∃ u rest, s.inputs = .tick u :: rest ∧ s.Ready u) →
    ∃ t, exec i s = .next t ∧ t.busy = false ∧ t.step = .idle ∧
      (s.params.wordBytes = 4 → s.params.txPollMax = 1000#14 → s.params.rxPollMax = 10000#14 →
        ∃ es, t.trace = es ++ s.trace ∧ (es.filter Event.isAccess).length ≤ 55022)

/-- R194, R192: the meanings on a busy block, and on a command that does not fit: turned away, no state written but
`status` for the latter. -/
def Obligations.CommandTurnedAwayWritesAtMostStatus : Prop :=
  ∀ (s : State) (i : Instr),
    (s.busy = true → exec i s = .next { s with trace := .response (.raised .concurrencyViolation) :: s.trace }) ∧
    (s.busy = false → ¬ i.WellFormed s.params →
      exec i s = .next { s with status := .bufferFault, trace := .response (.raised .bufferFault) :: s.trace })

/-! ### Frames of the commands, whatever happens while they run but a `Reset` event -/

/-- The frame of `EN` and `DIS` (R170 to R172): the transfer's registers and state stay, the Command Buffer changes only
where the command was loaded. A handler that runs before the command may write `IER` and read `DRR`. -/
def Obligations.InterruptCommandFrame : Prop :=
  ∀ (s t : State) (i : Instr) (trail : List Byte), (i = .en trail ∨ i = .dis trail) → Memory.wf s.cb →
    Input.reset ∉ s.inputs → exec i s = .next t →
    t.idx = s.idx ∧ t.poll = s.poll ∧ t.params = s.params ∧
    t.ctl.cr = s.ctl.cr ∧ t.ctl.sr = s.ctl.sr ∧ t.ctl.dtr = s.ctl.dtr ∧ t.ctl.ssr = s.ctl.ssr ∧
    t.ctl.gier = s.ctl.gier ∧ t.ctl.isr = s.ctl.isr ∧
    ∀ k, i.length ≤ k → Memory.read t.cb k = Memory.read s.cb k

/-- The frame of `WR` (R162): the Command Buffer is the loaded command's and is not written after the load. -/
def Obligations.WriteWordFrame : Prop :=
  ∀ (s t : State) (a p0 p1 p2 p3 : Byte) (trail : List Byte), s.params.Standard →
    (Instr.wr a p0 p1 p2 p3 trail).WellFormed s.params →
    Memory.wf s.cb → s.busy = false → Input.reset ∉ s.inputs → exec (.wr a p0 p1 p2 p3 trail) s = .next t →
    t.kind = .wr ∧ t.addr = a ∧ t.cbLen = BitVec.ofNat 8 (6 + trail.length) ∧ t.params = s.params ∧
    t.ctl.gier = s.ctl.gier ∧ t.ctl.isr = s.ctl.isr ∧
    ∀ k, Memory.read t.cb k = ((0x77#8 :: a :: p0 :: p1 :: p2 :: p3 :: trail)[k]?).getD (Memory.read s.cb k)

/-- The frame of `RD` (R161): beyond `CB[0..3]` the Command Buffer is the loaded command's. -/
def Obligations.ReadWordFrame : Prop :=
  ∀ (s t : State) (a : Byte) (trail : List Byte), s.params.Standard →
    (Instr.rd a trail).WellFormed s.params →
    Memory.wf s.cb → s.busy = false → Input.reset ∉ s.inputs → exec (.rd a trail) s = .next t →
    t.kind = .rd ∧ t.addr = a ∧ t.params = s.params ∧ t.ctl.gier = s.ctl.gier ∧ t.ctl.isr = s.ctl.isr ∧
    (t.cbLen = BitVec.ofNat 8 (2 + trail.length) ∨ t.cbLen = 4#8) ∧
    ∀ k, 4 ≤ k → Memory.read t.cb k = ((0x72#8 :: a :: trail)[k]?).getD (Memory.read s.cb k)
end

