-- ==== Sys2Proof/Laws/Memory.lean ====
section
/-! SUPPORT. The laws of the Command Buffer: reading after writing and loading, and that every operation keeps the
canonical form, in which equal contents are equal data. -/

namespace Sys2Proof.Machine

theorem Memory.read_put (m : Memory) (a : Nat) (b : Byte) (k : Nat)
    (h : Memory.read m a = Memory.unlisted) :
    Memory.read (Memory.put a b m) k = if a = k then b else Memory.read m k := by
  unfold Memory.put
  split
  · split
    · subst_vars; exact h
    · rfl
  · rfl

/-- An address below every listed one is unlisted. -/
theorem Memory.read_of_lt (m : Memory) (a : Nat) (h : ∀ c ∈ m, a < c.1) :
    Memory.read m a = Memory.unlisted := by
  induction m with
  | nil => rfl
  | cons c m ih =>
    have hc := h c (by simp)
    simp only [Memory.read, show c.1 ≠ a by omega, ↓reduceIte]
    exact ih fun d hd => h d (by simp [hd])

theorem Memory.rising_tail {c : Host.Cell} {m : Memory} (h : Memory.wf (c :: m)) :
    Memory.wf m ∧ ∀ d ∈ m, c.1 < d.1 :=
  ⟨⟨(List.pairwise_cons.1 h.1).2, fun d hd => h.2 d (by simp [hd])⟩, (List.pairwise_cons.1 h.1).1⟩

/-- Reading after a write: the byte written there, the old byte elsewhere. -/
theorem Memory.read_write (m : Memory) (hm : Memory.wf m) (a : Nat) (b : Byte) (k : Nat) :
    Memory.read (Memory.write m a b) k = if a = k then b else Memory.read m k := by
  induction m with
  | nil => exact Memory.read_put [] a b k rfl
  | cons c m ih =>
    obtain ⟨hm', hlt⟩ := Memory.rising_tail hm
    simp only [Memory.write]
    split
    · rename_i hac
      exact Memory.read_put _ _ _ _ <| Memory.read_of_lt _ _ fun d hd => by
        rcases List.mem_cons.1 hd with rfl | hd
        · exact hac
        · have := hlt d hd; omega
    · split
      · rename_i hac
        rw [Memory.read_put m a b k (Memory.read_of_lt m a fun d hd => hac ▸ hlt d hd)]
        simp only [Memory.read]
        split <;> simp_all
      · simp only [Memory.read, ih hm']
        split <;> split <;> simp_all

theorem Memory.put_wf (m : Memory) (hm : Memory.wf m) (a : Nat) (b : Byte) (hlt : ∀ d ∈ m, a < d.1) :
    Memory.wf (Memory.put a b m) := by
  unfold Memory.put
  split
  · exact hm
  · rename_i hb
    refine ⟨List.pairwise_cons.2 ⟨hlt, hm.1⟩, fun d hd => ?_⟩
    rcases List.mem_cons.1 hd with rfl | hd
    · exact hb
    · exact hm.2 d hd

/-- Every address listed after a write was listed before or is the one written. -/
theorem Memory.mem_write (m : Memory) (a : Nat) (b : Byte) (d : Host.Cell) (hd : d ∈ Memory.write m a b) :
    d.1 = a ∨ d ∈ m := by
  induction m with
  | nil =>
    simp only [Memory.write, Memory.put] at hd
    split at hd <;> simp_all
  | cons c m ih =>
    have hput : ∀ n : Memory, d ∈ Memory.put a b n → d.1 = a ∨ d ∈ n := fun n h => by
      unfold Memory.put at h
      split at h
      · exact .inr h
      · rcases List.mem_cons.1 h with rfl | h
        · exact .inl rfl
        · exact .inr h
    simp only [Memory.write] at hd
    split at hd
    · exact hput _ hd
    · split at hd
      · exact (hput _ hd).imp_right (List.mem_cons_of_mem _)
      · rcases List.mem_cons.1 hd with rfl | hd
        · simp
        · rcases ih hd with h | h
          · exact .inl h
          · simp [h]

/-- A write keeps the canonical form. -/
theorem Memory.write_wf (m : Memory) (hm : Memory.wf m) (a : Nat) (b : Byte) :
    Memory.wf (Memory.write m a b) := by
  induction m with
  | nil => exact Memory.put_wf [] hm a b (by simp)
  | cons c m ih =>
    obtain ⟨hm', hlt⟩ := Memory.rising_tail hm
    simp only [Memory.write]
    split
    · rename_i hac
      refine Memory.put_wf _ hm a b fun d hd => ?_
      rcases List.mem_cons.1 hd with rfl | hd
      · exact hac
      · have := hlt d hd; omega
    · split
      · rename_i hac
        exact Memory.put_wf m hm' a b fun d hd => hac ▸ hlt d hd
      · rename_i hac hne
        have ih := ih hm'
        refine ⟨List.pairwise_cons.2 ⟨fun d hd => ?_, ih.1⟩, fun d hd => ?_⟩
        · rcases Memory.mem_write m a b d hd with h | h
          · simp only [h]; omega
          · exact hlt d h
        · rcases List.mem_cons.1 hd with rfl | hd
          · exact hm.2 _ (by simp)
          · exact ih.2 d hd

/-- A write inside the buffer lists no address outside it (R62). -/
theorem Memory.write_within {size : Nat} {m : Memory} (hm : Memory.within size m) {a : Nat} (ha : a < size) (b : Byte) :
    Memory.within size (Memory.write m a b) := fun d hd =>
  (Memory.mem_write m a b d hd).elim (fun h => h ▸ ha) (hm d)

/-- Loading keeps the canonical form (R142). -/
theorem Memory.load_wf (bs : List Byte) (m : Memory) (hm : Memory.wf m) (a : Nat) : Memory.wf (Memory.load m a bs) := by
  induction bs generalizing m a with
  | nil => exact hm
  | cons b bs ih => exact ih _ (Memory.write_wf m hm a b) (a + 1)

/-- Loading inside the buffer lists no address outside it (R62, R142). -/
theorem Memory.load_within {size : Nat} (bs : List Byte) (m : Memory) (hm : Memory.within size m) (a : Nat)
    (ha : a + bs.length ≤ size) : Memory.within size (Memory.load m a bs) := by
  induction bs generalizing m a with
  | nil => exact hm
  | cons b bs ih =>
    simp only [List.length_cons] at ha
    exact ih _ (Memory.write_within hm (by omega) b) (a + 1) (by omega)

/-- R142: after a load the loaded positions hold the bytes and the others what they held. -/
theorem Memory.read_load (bs : List Byte) (m : Memory) (hm : Memory.wf m) (a k : Nat) :
    Memory.read (Memory.load m a bs) k =
      if a ≤ k then (bs[k - a]?).getD (Memory.read m k) else Memory.read m k := by
  induction bs generalizing m a with
  | nil => simp [Memory.load]
  | cons b bs ih =>
    rw [Memory.load, ih _ (Memory.write_wf m hm a b) (a + 1), Memory.read_write m hm]
    by_cases h1 : a + 1 ≤ k
    · obtain ⟨n, rfl⟩ : ∃ n, k = a + 1 + n := ⟨k - (a + 1), by omega⟩
      have h2 : a + 1 + n - a = n + 1 := by omega
      simp [show a ≤ a + 1 + n by omega, show a ≠ a + 1 + n by omega, h2]
    · by_cases h2 : a = k
      · subst h2; simp
      · simp [h1, h2, show ¬ a ≤ k by omega]

/-- In the canonical form, equal contents are equal data. -/
theorem Memory.ext_of_read (m : Memory) (hm : Memory.wf m) (n : Memory) (hn : Memory.wf n)
    (h : ∀ k, Memory.read m k = Memory.read n k) : m = n := by
  induction m generalizing n with
  | nil =>
    cases n with
    | nil => rfl
    | cons d n => have := h d.1; simp [Memory.read] at this; exact absurd this.symm (hn.2 d (by simp))
  | cons c m ih =>
    cases n with
    | nil => have := h c.1; simp [Memory.read] at this; exact absurd this (hm.2 c (by simp))
    | cons d n =>
      obtain ⟨hm', hmlt⟩ := Memory.rising_tail hm
      obtain ⟨hn', hnlt⟩ := Memory.rising_tail hn
      have hkey : c.1 = d.1 := by
        rcases Nat.lt_trichotomy c.1 d.1 with hcd | hcd | hcd
        · have := h c.1
          rw [Memory.read_of_lt (d :: n) c.1 (by
            intro e he
            rcases List.mem_cons.1 he with rfl | he
            · exact hcd
            · have := hnlt e he; omega)] at this
          simp [Memory.read] at this
          exact absurd this (hm.2 c (by simp))
        · exact hcd
        · have := h d.1
          rw [Memory.read_of_lt (c :: m) d.1 (by
            intro e he
            rcases List.mem_cons.1 he with rfl | he
            · exact hcd
            · have := hmlt e he; omega)] at this
          simp [Memory.read] at this
          exact absurd this.symm (hn.2 d (by simp))
      have hval : c.2 = d.2 := by have := h c.1; simpa [Memory.read, hkey] using this
      have htail : m = n := ih hm' n hn' fun k => by
        have := h k
        simp only [Memory.read] at this
        by_cases hk : c.1 = k
        · rw [Memory.read_of_lt m k (hk ▸ hmlt), Memory.read_of_lt n k (fun e he => hk ▸ hkey ▸ hnlt e he)]
        · simpa [hk, show d.1 ≠ k from hkey ▸ hk] using this
      exact congrArg₂ _ (Prod.ext hkey hval) htail

end Sys2Proof.Machine
end

