-- ==== Sys2Proof/Laws/Params.lean ====
section
/-! SUPPORT. The numbers of this hardware (R9, R10): each parameter, and each word and test made of parameters, under
`Params.Standard`. -/

namespace Sys2Proof

namespace Params.Standard

variable {p : Params} (h : p.Standard)
include h

theorem cbSize : p.cbSize = 128 := congrArg Params.cbSize h
theorem wordBytes : p.wordBytes = 4 := congrArg Params.wordBytes h
theorem ssAssert : p.ssAssert = 0xFFFFFFFE#32 := congrArg Params.ssAssert h
theorem ssDeassert : p.ssDeassert = 0xFFFFFFFF#32 := congrArg Params.ssDeassert h
theorem crEnable : p.crEnable = 0x002#32 := congrArg Params.crEnable h
theorem crMaster : p.crMaster = 0x004#32 := congrArg Params.crMaster h
theorem crCpha : p.crCpha = 0x010#32 := congrArg Params.crCpha h
theorem crManualSs : p.crManualSs = 0x080#32 := congrArg Params.crManualSs h
theorem crInhibit : p.crInhibit = 0x100#32 := congrArg Params.crInhibit h
theorem srRxEmpty : p.srRxEmpty = 0 := congrArg Params.srRxEmpty h
theorem srTxEmpty : p.srTxEmpty = 2 := congrArg Params.srTxEmpty h
theorem ierRxReady : p.ierRxReady = 0x010#32 := congrArg Params.ierRxReady h
theorem writeMarker : p.writeMarker = 0x80#8 := congrArg Params.writeMarker h
theorem dummyByte : p.dummyByte = 0x00#8 := congrArg Params.dummyByte h
theorem opEn : p.opEn = 0x65#8 := congrArg Params.opEn h
theorem opDis : p.opDis = 0x64#8 := congrArg Params.opDis h
theorem opRd : p.opRd = 0x72#8 := congrArg Params.opRd h
theorem opWr : p.opWr = 0x77#8 := congrArg Params.opWr h

/-- R94: the opcodes are told apart. -/
theorem opcodes_nodup : [p.opEn, p.opDis, p.opRd, p.opWr].Nodup := by
  rw [opEn h, opDis h, opRd h, opWr h]; decide

end Params.Standard

namespace Machine

/-- R101, for a read. -/
theorem abyte_rd (p : Params) (a : Byte) : abyte p .rd a = a := rfl

variable {p : Params} (h : p.Standard)
include h

/-- R98, for a read. -/
theorem cwCfg_rd : cwCfg p .rd = 0x00000196#32 := by simp [cwCfg, h.crEnable, h.crMaster, h.crManualSs, h.crInhibit, h.crCpha]
/-- R98, for a write. -/
theorem cwCfg_wr : cwCfg p .wr = 0x00000186#32 := by simp [cwCfg, h.crEnable, h.crMaster, h.crManualSs, h.crInhibit]
/-- R99, for a read. -/
theorem cwRun_rd : cwRun p .rd = 0x00000096#32 := by simp [cwRun, cwCfg_rd h, h.crInhibit]
/-- R99, for a write. -/
theorem cwRun_wr : cwRun p .wr = 0x00000086#32 := by simp [cwRun, cwCfg_wr h, h.crInhibit]
/-- R100. -/
theorem ierOn_eq : ierOn p = 0x00000010#32 := h.ierRxReady
/-- R101, for a write. -/
theorem abyte_wr (a : Byte) : abyte p .wr a = a ||| 0x80#8 := by simp [abyte, h.writeMarker]
/-- R123: the transmit test. -/
theorem srTxEmpty_eq (v : Word) : srTxEmpty p v = v.getLsbD 2 := by rw [srTxEmpty, h.srTxEmpty]
/-- R124: the receive test. -/
theorem srRxNotEmpty_eq (v : Word) : srRxNotEmpty p v = !v.getLsbD 0 := by rw [srRxNotEmpty, h.srRxEmpty]
/-- R152, for a read. -/
theorem firstIdx_rd : firstIdx p .rd = 3#3 := by simp [firstIdx, h.wordBytes]
/-- R152, for a write. -/
theorem firstIdx_wr : firstIdx p .wr = 5#3 := by simp [firstIdx, h.wordBytes]

end Machine

end Sys2Proof
end

