-- ==== Sys2Proof/Laws/PerInstr.lean ====
section
/-! SUPPORT. What holds of every command as syntax, one lemma per constructor: a command's byte string begins with its
opcode and is as long as `Instr.length` says (R91, R93). -/

namespace Sys2Proof.Laws.EncodeLength

/-- The byte string of a command has its length, and its first byte is the opcode of the command's kind (R94). -/
def Statement (i : Instr) : Prop :=
  ∀ p : Params, (encode p i).length = i.length ∧
    (encode p i).head? = some (match i.kind with
      | .en => p.opEn
      | .dis => p.opDis
      | .rd => p.opRd
      | .wr => p.opWr)

theorem en (t : List Byte) : Statement (.en t) := fun _ => ⟨by simp [encode, Instr.length, Nat.add_comm], rfl⟩

theorem dis (t : List Byte) : Statement (.dis t) := fun _ => ⟨by simp [encode, Instr.length, Nat.add_comm], rfl⟩

theorem rd (a : Byte) (t : List Byte) : Statement (.rd a t) := fun _ => ⟨by simp [encode, Instr.length]; omega, rfl⟩

theorem wr (a p0 p1 p2 p3 : Byte) (t : List Byte) : Statement (.wr a p0 p1 p2 p3 t) :=
  fun _ => ⟨by simp [encode, Instr.length]; omega, rfl⟩

end Sys2Proof.Laws.EncodeLength
end

