-- ==== Sys2Proof/Laws/State.lean ====
section
/-! SUPPORT. One lemma per field per named update of State, true by rfl, so that no proof unfolds a record update. -/

namespace Sys2Proof.Machine

variable (s : State)

/-! `State.memWrite32` -/
@[simp] theorem State.memWrite32_step (r : RegId) (v : Word) : (s.memWrite32 r v).step = s.step := rfl
@[simp] theorem State.memWrite32_busy (r : RegId) (v : Word) : (s.memWrite32 r v).busy = s.busy := rfl
@[simp] theorem State.memWrite32_kind (r : RegId) (v : Word) : (s.memWrite32 r v).kind = s.kind := rfl
@[simp] theorem State.memWrite32_addr (r : RegId) (v : Word) : (s.memWrite32 r v).addr = s.addr := rfl
@[simp] theorem State.memWrite32_idx (r : RegId) (v : Word) : (s.memWrite32 r v).idx = s.idx := rfl
@[simp] theorem State.memWrite32_poll (r : RegId) (v : Word) : (s.memWrite32 r v).poll = s.poll := rfl
@[simp] theorem State.memWrite32_tmo (r : RegId) (v : Word) : (s.memWrite32 r v).tmo = s.tmo := rfl
@[simp] theorem State.memWrite32_cb (r : RegId) (v : Word) : (s.memWrite32 r v).cb = s.cb := rfl
@[simp] theorem State.memWrite32_cbLen (r : RegId) (v : Word) : (s.memWrite32 r v).cbLen = s.cbLen := rfl
@[simp] theorem State.memWrite32_status (r : RegId) (v : Word) : (s.memWrite32 r v).status = s.status := rfl
@[simp] theorem State.memWrite32_ctl (r : RegId) (v : Word) : (s.memWrite32 r v).ctl = s.ctl.seen32 r v := rfl
@[simp] theorem State.memWrite32_params (r : RegId) (v : Word) : (s.memWrite32 r v).params = s.params := rfl
@[simp] theorem State.memWrite32_inputs (r : RegId) (v : Word) : (s.memWrite32 r v).inputs = s.inputs := rfl
@[simp] theorem State.memWrite32_drawn (r : RegId) (v : Word) : (s.memWrite32 r v).drawn = s.drawn := rfl
@[simp] theorem State.memWrite32_trace (r : RegId) (v : Word) : (s.memWrite32 r v).trace = .w32 r v :: s.trace := rfl

/-! `State.memWrite8` -/
@[simp] theorem State.memWrite8_step (r : RegId) (v : Byte) : (s.memWrite8 r v).step = s.step := rfl
@[simp] theorem State.memWrite8_busy (r : RegId) (v : Byte) : (s.memWrite8 r v).busy = s.busy := rfl
@[simp] theorem State.memWrite8_kind (r : RegId) (v : Byte) : (s.memWrite8 r v).kind = s.kind := rfl
@[simp] theorem State.memWrite8_addr (r : RegId) (v : Byte) : (s.memWrite8 r v).addr = s.addr := rfl
@[simp] theorem State.memWrite8_idx (r : RegId) (v : Byte) : (s.memWrite8 r v).idx = s.idx := rfl
@[simp] theorem State.memWrite8_poll (r : RegId) (v : Byte) : (s.memWrite8 r v).poll = s.poll := rfl
@[simp] theorem State.memWrite8_tmo (r : RegId) (v : Byte) : (s.memWrite8 r v).tmo = s.tmo := rfl
@[simp] theorem State.memWrite8_cb (r : RegId) (v : Byte) : (s.memWrite8 r v).cb = s.cb := rfl
@[simp] theorem State.memWrite8_cbLen (r : RegId) (v : Byte) : (s.memWrite8 r v).cbLen = s.cbLen := rfl
@[simp] theorem State.memWrite8_status (r : RegId) (v : Byte) : (s.memWrite8 r v).status = s.status := rfl
@[simp] theorem State.memWrite8_ctl (r : RegId) (v : Byte) : (s.memWrite8 r v).ctl = s.ctl.seen8 r v := rfl
@[simp] theorem State.memWrite8_params (r : RegId) (v : Byte) : (s.memWrite8 r v).params = s.params := rfl
@[simp] theorem State.memWrite8_inputs (r : RegId) (v : Byte) : (s.memWrite8 r v).inputs = s.inputs := rfl
@[simp] theorem State.memWrite8_drawn (r : RegId) (v : Byte) : (s.memWrite8 r v).drawn = s.drawn := rfl
@[simp] theorem State.memWrite8_trace (r : RegId) (v : Byte) : (s.memWrite8 r v).trace = .w8 r v :: s.trace := rfl

/-! `State.memRead32` -/
@[simp] theorem State.memRead32_step (r : RegId) (v : Word) : (s.memRead32 r v).step = s.step := rfl
@[simp] theorem State.memRead32_busy (r : RegId) (v : Word) : (s.memRead32 r v).busy = s.busy := rfl
@[simp] theorem State.memRead32_kind (r : RegId) (v : Word) : (s.memRead32 r v).kind = s.kind := rfl
@[simp] theorem State.memRead32_addr (r : RegId) (v : Word) : (s.memRead32 r v).addr = s.addr := rfl
@[simp] theorem State.memRead32_idx (r : RegId) (v : Word) : (s.memRead32 r v).idx = s.idx := rfl
@[simp] theorem State.memRead32_poll (r : RegId) (v : Word) : (s.memRead32 r v).poll = s.poll := rfl
@[simp] theorem State.memRead32_tmo (r : RegId) (v : Word) : (s.memRead32 r v).tmo = s.tmo := rfl
@[simp] theorem State.memRead32_cb (r : RegId) (v : Word) : (s.memRead32 r v).cb = s.cb := rfl
@[simp] theorem State.memRead32_cbLen (r : RegId) (v : Word) : (s.memRead32 r v).cbLen = s.cbLen := rfl
@[simp] theorem State.memRead32_status (r : RegId) (v : Word) : (s.memRead32 r v).status = s.status := rfl
@[simp] theorem State.memRead32_ctl (r : RegId) (v : Word) : (s.memRead32 r v).ctl = s.ctl.seen32 r v := rfl
@[simp] theorem State.memRead32_params (r : RegId) (v : Word) : (s.memRead32 r v).params = s.params := rfl
@[simp] theorem State.memRead32_inputs (r : RegId) (v : Word) : (s.memRead32 r v).inputs = s.inputs := rfl
@[simp] theorem State.memRead32_drawn (r : RegId) (v : Word) : (s.memRead32 r v).drawn = s.drawn := rfl
@[simp] theorem State.memRead32_trace (r : RegId) (v : Word) : (s.memRead32 r v).trace = .r32 r v :: s.trace := rfl

/-! `State.memRead8` -/
@[simp] theorem State.memRead8_step (r : RegId) (v : Byte) : (s.memRead8 r v).step = s.step := rfl
@[simp] theorem State.memRead8_busy (r : RegId) (v : Byte) : (s.memRead8 r v).busy = s.busy := rfl
@[simp] theorem State.memRead8_kind (r : RegId) (v : Byte) : (s.memRead8 r v).kind = s.kind := rfl
@[simp] theorem State.memRead8_addr (r : RegId) (v : Byte) : (s.memRead8 r v).addr = s.addr := rfl
@[simp] theorem State.memRead8_idx (r : RegId) (v : Byte) : (s.memRead8 r v).idx = s.idx := rfl
@[simp] theorem State.memRead8_poll (r : RegId) (v : Byte) : (s.memRead8 r v).poll = s.poll := rfl
@[simp] theorem State.memRead8_tmo (r : RegId) (v : Byte) : (s.memRead8 r v).tmo = s.tmo := rfl
@[simp] theorem State.memRead8_cb (r : RegId) (v : Byte) : (s.memRead8 r v).cb = s.cb := rfl
@[simp] theorem State.memRead8_cbLen (r : RegId) (v : Byte) : (s.memRead8 r v).cbLen = s.cbLen := rfl
@[simp] theorem State.memRead8_status (r : RegId) (v : Byte) : (s.memRead8 r v).status = s.status := rfl
@[simp] theorem State.memRead8_ctl (r : RegId) (v : Byte) : (s.memRead8 r v).ctl = s.ctl.seen8 r v := rfl
@[simp] theorem State.memRead8_params (r : RegId) (v : Byte) : (s.memRead8 r v).params = s.params := rfl
@[simp] theorem State.memRead8_inputs (r : RegId) (v : Byte) : (s.memRead8 r v).inputs = s.inputs := rfl
@[simp] theorem State.memRead8_drawn (r : RegId) (v : Byte) : (s.memRead8 r v).drawn = s.drawn := rfl
@[simp] theorem State.memRead8_trace (r : RegId) (v : Byte) : (s.memRead8 r v).trace = .r8 r v :: s.trace := rfl

/-! `State.emit` -/
@[simp] theorem State.emit_step (e : Event) : (s.emit e).step = s.step := rfl
@[simp] theorem State.emit_busy (e : Event) : (s.emit e).busy = s.busy := rfl
@[simp] theorem State.emit_kind (e : Event) : (s.emit e).kind = s.kind := rfl
@[simp] theorem State.emit_addr (e : Event) : (s.emit e).addr = s.addr := rfl
@[simp] theorem State.emit_idx (e : Event) : (s.emit e).idx = s.idx := rfl
@[simp] theorem State.emit_poll (e : Event) : (s.emit e).poll = s.poll := rfl
@[simp] theorem State.emit_tmo (e : Event) : (s.emit e).tmo = s.tmo := rfl
@[simp] theorem State.emit_cb (e : Event) : (s.emit e).cb = s.cb := rfl
@[simp] theorem State.emit_cbLen (e : Event) : (s.emit e).cbLen = s.cbLen := rfl
@[simp] theorem State.emit_status (e : Event) : (s.emit e).status = s.status := rfl
@[simp] theorem State.emit_ctl (e : Event) : (s.emit e).ctl = s.ctl := rfl
@[simp] theorem State.emit_params (e : Event) : (s.emit e).params = s.params := rfl
@[simp] theorem State.emit_inputs (e : Event) : (s.emit e).inputs = s.inputs := rfl
@[simp] theorem State.emit_drawn (e : Event) : (s.emit e).drawn = s.drawn := rfl
@[simp] theorem State.emit_trace (e : Event) : (s.emit e).trace = e :: s.trace := rfl

/-! `State.raise` -/
@[simp] theorem State.raise_step (c : Code) : (s.raise c).step = s.step := rfl
@[simp] theorem State.raise_busy (c : Code) : (s.raise c).busy = s.busy := rfl
@[simp] theorem State.raise_kind (c : Code) : (s.raise c).kind = s.kind := rfl
@[simp] theorem State.raise_addr (c : Code) : (s.raise c).addr = s.addr := rfl
@[simp] theorem State.raise_idx (c : Code) : (s.raise c).idx = s.idx := rfl
@[simp] theorem State.raise_poll (c : Code) : (s.raise c).poll = s.poll := rfl
@[simp] theorem State.raise_tmo (c : Code) : (s.raise c).tmo = s.tmo := rfl
@[simp] theorem State.raise_cb (c : Code) : (s.raise c).cb = s.cb := rfl
@[simp] theorem State.raise_cbLen (c : Code) : (s.raise c).cbLen = s.cbLen := rfl
@[simp] theorem State.raise_status (c : Code) : (s.raise c).status = s.status := rfl
@[simp] theorem State.raise_ctl (c : Code) : (s.raise c).ctl = s.ctl := rfl
@[simp] theorem State.raise_params (c : Code) : (s.raise c).params = s.params := rfl
@[simp] theorem State.raise_inputs (c : Code) : (s.raise c).inputs = s.inputs := rfl
@[simp] theorem State.raise_drawn (c : Code) : (s.raise c).drawn = s.drawn := rfl
@[simp] theorem State.raise_trace (c : Code) : (s.raise c).trace = .response (.raised c) :: s.trace := rfl

/-! `State.complete` -/
@[simp] theorem State.complete_step (c : Code) : (s.complete c).step = .idle := rfl
@[simp] theorem State.complete_busy (c : Code) : (s.complete c).busy = false := rfl
@[simp] theorem State.complete_kind (c : Code) : (s.complete c).kind = s.kind := rfl
@[simp] theorem State.complete_addr (c : Code) : (s.complete c).addr = s.addr := rfl
@[simp] theorem State.complete_idx (c : Code) : (s.complete c).idx = s.idx := rfl
@[simp] theorem State.complete_poll (c : Code) : (s.complete c).poll = s.poll := rfl
@[simp] theorem State.complete_tmo (c : Code) : (s.complete c).tmo = s.tmo := rfl
@[simp] theorem State.complete_cb (c : Code) : (s.complete c).cb = s.cb := rfl
@[simp] theorem State.complete_cbLen (c : Code) : (s.complete c).cbLen = s.cbLen := rfl
@[simp] theorem State.complete_status (c : Code) : (s.complete c).status = c := rfl
@[simp] theorem State.complete_ctl (c : Code) : (s.complete c).ctl = s.ctl := rfl
@[simp] theorem State.complete_params (c : Code) : (s.complete c).params = s.params := rfl
@[simp] theorem State.complete_inputs (c : Code) : (s.complete c).inputs = s.inputs := rfl
@[simp] theorem State.complete_drawn (c : Code) : (s.complete c).drawn = s.drawn := rfl
@[simp] theorem State.complete_trace (c : Code) : (s.complete c).trace = .done c :: s.trace := rfl

/-! `State.enterHandler` -/
@[simp] theorem State.enterHandler_step : (s.enterHandler).step = .irqDis := rfl
@[simp] theorem State.enterHandler_busy : (s.enterHandler).busy = s.busy := rfl
@[simp] theorem State.enterHandler_kind : (s.enterHandler).kind = s.kind := rfl
@[simp] theorem State.enterHandler_addr : (s.enterHandler).addr = s.addr := rfl
@[simp] theorem State.enterHandler_idx : (s.enterHandler).idx = s.idx := rfl
@[simp] theorem State.enterHandler_poll : (s.enterHandler).poll = s.poll := rfl
@[simp] theorem State.enterHandler_tmo : (s.enterHandler).tmo = s.tmo := rfl
@[simp] theorem State.enterHandler_cb : (s.enterHandler).cb = s.cb := rfl
@[simp] theorem State.enterHandler_cbLen : (s.enterHandler).cbLen = s.cbLen := rfl
@[simp] theorem State.enterHandler_status : (s.enterHandler).status = s.status := rfl
@[simp] theorem State.enterHandler_ctl : (s.enterHandler).ctl = s.ctl := rfl
@[simp] theorem State.enterHandler_params : (s.enterHandler).params = s.params := rfl
@[simp] theorem State.enterHandler_inputs : (s.enterHandler).inputs = s.inputs := rfl
@[simp] theorem State.enterHandler_drawn : (s.enterHandler).drawn = s.drawn := rfl
@[simp] theorem State.enterHandler_trace : (s.enterHandler).trace = s.trace := rfl

/-! `State.leaveHandler` -/
@[simp] theorem State.leaveHandler_step : (s.leaveHandler).step = .idle := rfl
@[simp] theorem State.leaveHandler_busy : (s.leaveHandler).busy = s.busy := rfl
@[simp] theorem State.leaveHandler_kind : (s.leaveHandler).kind = s.kind := rfl
@[simp] theorem State.leaveHandler_addr : (s.leaveHandler).addr = s.addr := rfl
@[simp] theorem State.leaveHandler_idx : (s.leaveHandler).idx = s.idx := rfl
@[simp] theorem State.leaveHandler_poll : (s.leaveHandler).poll = s.poll := rfl
@[simp] theorem State.leaveHandler_tmo : (s.leaveHandler).tmo = s.tmo := rfl
@[simp] theorem State.leaveHandler_cb : (s.leaveHandler).cb = s.cb := rfl
@[simp] theorem State.leaveHandler_cbLen : (s.leaveHandler).cbLen = s.cbLen := rfl
@[simp] theorem State.leaveHandler_status : (s.leaveHandler).status = s.status := rfl
@[simp] theorem State.leaveHandler_ctl : (s.leaveHandler).ctl = s.ctl := rfl
@[simp] theorem State.leaveHandler_params : (s.leaveHandler).params = s.params := rfl
@[simp] theorem State.leaveHandler_inputs : (s.leaveHandler).inputs = s.inputs := rfl
@[simp] theorem State.leaveHandler_drawn : (s.leaveHandler).drawn = s.drawn := rfl
@[simp] theorem State.leaveHandler_trace : (s.leaveHandler).trace = .irqAck :: s.trace := rfl

/-! `State.loadCommand` -/
@[simp] theorem State.loadCommand_step (bs : List Byte) : (s.loadCommand bs).step = s.step := rfl
@[simp] theorem State.loadCommand_busy (bs : List Byte) : (s.loadCommand bs).busy = s.busy := rfl
@[simp] theorem State.loadCommand_kind (bs : List Byte) : (s.loadCommand bs).kind = s.kind := rfl
@[simp] theorem State.loadCommand_addr (bs : List Byte) : (s.loadCommand bs).addr = s.addr := rfl
@[simp] theorem State.loadCommand_idx (bs : List Byte) : (s.loadCommand bs).idx = s.idx := rfl
@[simp] theorem State.loadCommand_poll (bs : List Byte) : (s.loadCommand bs).poll = s.poll := rfl
@[simp] theorem State.loadCommand_tmo (bs : List Byte) : (s.loadCommand bs).tmo = s.tmo := rfl
@[simp] theorem State.loadCommand_cb (bs : List Byte) : (s.loadCommand bs).cb = Memory.load s.cb 0 bs := rfl
@[simp] theorem State.loadCommand_cbLen (bs : List Byte) : (s.loadCommand bs).cbLen = BitVec.ofNat 8 bs.length := rfl
@[simp] theorem State.loadCommand_status (bs : List Byte) : (s.loadCommand bs).status = s.status := rfl
@[simp] theorem State.loadCommand_ctl (bs : List Byte) : (s.loadCommand bs).ctl = s.ctl := rfl
@[simp] theorem State.loadCommand_params (bs : List Byte) : (s.loadCommand bs).params = s.params := rfl
@[simp] theorem State.loadCommand_inputs (bs : List Byte) : (s.loadCommand bs).inputs = s.inputs := rfl
@[simp] theorem State.loadCommand_drawn (bs : List Byte) : (s.loadCommand bs).drawn = s.drawn := rfl
@[simp] theorem State.loadCommand_trace (bs : List Byte) : (s.loadCommand bs).trace = s.trace := rfl

/-! `State.accept` -/
@[simp] theorem State.accept_step (k : Kind) : (s.accept k).step = s.step := rfl
@[simp] theorem State.accept_busy (k : Kind) : (s.accept k).busy = true := rfl
@[simp] theorem State.accept_kind (k : Kind) : (s.accept k).kind = k := rfl
@[simp] theorem State.accept_addr (k : Kind) : (s.accept k).addr = Memory.read s.cb 1 := rfl
@[simp] theorem State.accept_idx (k : Kind) : (s.accept k).idx = s.idx := rfl
@[simp] theorem State.accept_poll (k : Kind) : (s.accept k).poll = s.poll := rfl
@[simp] theorem State.accept_tmo (k : Kind) : (s.accept k).tmo = false := rfl
@[simp] theorem State.accept_cb (k : Kind) : (s.accept k).cb = s.cb := rfl
@[simp] theorem State.accept_cbLen (k : Kind) : (s.accept k).cbLen = s.cbLen := rfl
@[simp] theorem State.accept_status (k : Kind) : (s.accept k).status = s.status := rfl
@[simp] theorem State.accept_ctl (k : Kind) : (s.accept k).ctl = s.ctl := rfl
@[simp] theorem State.accept_params (k : Kind) : (s.accept k).params = s.params := rfl
@[simp] theorem State.accept_inputs (k : Kind) : (s.accept k).inputs = s.inputs := rfl
@[simp] theorem State.accept_drawn (k : Kind) : (s.accept k).drawn = s.drawn := rfl
@[simp] theorem State.accept_trace (k : Kind) : (s.accept k).trace = .response .accepted :: s.trace := rfl

/-! The record of the controller's registers, for the accesses the block makes -/
@[simp] theorem Controller.seen32_cr (c : Controller) (v : Word) : c.seen32 .cr v = { c with cr := v } := rfl
@[simp] theorem Controller.seen32_sr (c : Controller) (v : Word) : c.seen32 .sr v = { c with sr := v } := rfl
@[simp] theorem Controller.seen32_ssr (c : Controller) (v : Word) : c.seen32 .ssr v = { c with ssr := v } := rfl
@[simp] theorem Controller.seen32_ier (c : Controller) (v : Word) : c.seen32 .ier v = { c with ier := v } := rfl
@[simp] theorem Controller.seen8_dtr (c : Controller) (v : Byte) : c.seen8 .dtr v = { c with dtr := v } := rfl
@[simp] theorem Controller.seen8_drr (c : Controller) (v : Byte) : c.seen8 .drr v = { c with drr := v } := rfl

end Sys2Proof.Machine
end

