-- ==== Sys2Proof/Laws/Step.lean ====
section
/-! SUPPORT. What the shared operations can do, said once: the poll iteration, the host event `Submit`, the
arbitration, one step of the machine by what stands first in `inputs`, and the run of a program line. -/

namespace Sys2Proof.Machine

/-! ### The exchange -/

/-- R123, R124, R126, R127: everything one poll iteration can do. -/
theorem pollOnce_cases (passes : Bool) (bound : BitVec 14) (l : Label) (s : State) :
    (passes = true ∧ pollOnce passes bound l s = { s with poll := 0#14, step := l }) ∨
    (passes = false ∧ s.poll + 1#14 = bound ∧ s.params.timeoutMode = .abort ∧
      pollOnce passes bound l s = { s with tmo := true, poll := 0#14, step := .rstCr }) ∨
    (passes = false ∧ s.poll + 1#14 = bound ∧ s.params.timeoutMode = .legacy ∧
      pollOnce passes bound l s = { s with poll := 0#14, step := l }) ∨
    (passes = false ∧ s.poll + 1#14 ≠ bound ∧ pollOnce passes bound l s = { s with poll := s.poll + 1#14 }) := by
  unfold pollOnce timeout
  cases passes with
  | true => simp
  | false =>
    by_cases h : s.poll + 1#14 = bound
    · cases hm : s.params.timeoutMode <;> simp [h]
    · simp [h]

/-- R144: everything the arbitration at `IDLE` can do. -/
theorem idleStep_cases (u : Draw) (s : State) :
    (s.busy = true ∧ commandWins s.params.arbOrder u = true ∧ idleStep u s = { s with step := firstLabel s.kind }) ∨
    (u.irq = true ∧ idleStep u s = { s with step := .irqDis }) ∨
    (s.busy = false ∧ u.irq = false ∧ idleStep u s = s) := by
  unfold idleStep commandWins State.enterHandler
  cases hb : s.busy <;> cases hu : u.irq <;> cases ha : s.params.arbOrder <;> cases hp : u.pick <;> simp

/-- R141: everything a `Submit` can do. -/
theorem submit_cases (bs : List Byte) (s : State) :
    (s.busy = true ∧ submit bs s = s.raise .concurrencyViolation) ∨
    (s.busy = false ∧ decode s.params bs = .error .tooLong ∧
      submit bs s = { s with status := .bufferFault }.raise .bufferFault) ∨
    (s.busy = false ∧ (∃ r, decode s.params bs = .error r ∧ r ≠ .tooLong) ∧
      submit bs s = { s.loadCommand bs with status := .protocolFault }.raise .protocolFault) ∨
    (s.busy = false ∧ ∃ i, decode s.params bs = .ok i ∧ submit bs s = (s.loadCommand bs).accept i.kind) := by
  unfold submit
  cases hb : s.busy with
  | true => simp
  | false =>
    cases hd : decode s.params bs with
    | ok i => simp
    | error r => cases r <;> simp

/-! ### Decoding -/

/-- R192: a string is too long exactly when it does not fit the buffer. -/
theorem decode_tooLong_iff (p : Params) (bs : List Byte) : decode p bs = .error .tooLong ↔ p.cbSize < bs.length := by
  constructor
  · intro h
    by_contra hl
    unfold decode decodeAfterOpcode at h
    simp only [hl, ↓reduceIte] at h
    split at h
    · cases h
    · split at h
      · cases h
      · split at h
        · cases h
        · split at h
          · split at h <;> cases h
          · split at h
            · split at h <;> cases h
            · cases h
  · intro h
    simp [decode, h]

/-- What is accepted fits the buffer. -/
theorem length_le_of_decode {p : Params} {bs : List Byte} {r : Except Reject Instr} (h : decode p bs = r)
    (hr : r ≠ .error .tooLong) : bs.length ≤ p.cbSize := by
  by_contra hl
  exact hr (h ▸ (decode_tooLong_iff p bs).2 (by omega))

/-! ### One step -/

theorem microStep_of_hasRule {u : Draw} {s : State} (h : s.hasRule = true) :
    microStep u s = .next (labelStep u s) := by simp [microStep, h]

/-- A micro-step that answers a next state is its label's step, in a state the rules speak of. -/
theorem microStep_next {u : Draw} {s t : State} (h : microStep u s = .next t) :
    s.hasRule = true ∧ t = labelStep u s := by
  unfold microStep at h
  split at h
  · rename_i hr
    injection h with h
    exact ⟨hr, h.symm⟩
  · cases h

/-- Everything a step of R15 can be: a host event, or a micro-step with some inputs. -/
theorem advance_cases (s : State) :
    (∃ bs rest, s.inputs = .submit bs :: rest ∧ advance s = .next (submit bs { s with inputs := rest })) ∨
    (∃ rest, s.inputs = .readBack :: rest ∧ advance s = .next (readBack { s with inputs := rest })) ∨
    (∃ rest, s.inputs = .reset :: rest ∧ advance s = .next (resetBlock { s with inputs := rest })) ∨
    (∃ u rest, s.inputs = .tick u :: rest ∧ advance s = microStep u { s with inputs := rest }) ∨
    ((s.inputs = [] ∨ ∃ bs rest, s.inputs = .command bs :: rest) ∧
      advance s = microStep (freeDraw s.drawn) { s with drawn := s.drawn + 1 }) := by
  unfold advance
  split <;> simp_all [freeMicroStep]

theorem advance_tick {s : State} {u : Draw} {rest : List Input} (h : s.inputs = .tick u :: rest) :
    advance s = microStep u { s with inputs := rest } := by simp [advance, h]

theorem fetch_eq_some {s t : State} {bs : List Byte} (h : fetch s = some (bs, t)) :
    ∃ rest, s.inputs = .command bs :: rest ∧ s.busy = false ∧ t = { s with inputs := rest } := by
  unfold fetch at h
  split at h <;> simp_all

/-- A program line is fetched when the block is not busy (R104). -/
theorem fetch_command {s : State} {bs : List Byte} {rest : List Input} (h : s.inputs = .command bs :: rest)
    (hb : s.busy = false) : fetch s = some (bs, { s with inputs := rest }) := by
  simp [fetch, h, hb]

/-- While a transaction is in flight the machine's step is one step of R15. -/
theorem step_of_busy {s : State} (h : s.busy = true) : step s = advance s := by
  unfold step
  cases hf : fetch s with
  | none => rfl
  | some p =>
    obtain ⟨rest, -, hb, -⟩ := fetch_eq_some (t := p.2) (bs := p.1) hf
    exact absurd hb (by simp [h])

/-- Where no program line stands first the machine's step is one step of R15. -/
theorem step_of_not_command {s : State} (h : ∀ bs rest, s.inputs ≠ .command bs :: rest) : step s = advance s := by
  unfold step
  cases hf : fetch s with
  | none => rfl
  | some p =>
    obtain ⟨rest, hi, -⟩ := fetch_eq_some (t := p.2) (bs := p.1) hf
    exact absurd hi (h _ _)

theorem step_tick {s : State} {u : Draw} {rest : List Input} (h : s.inputs = .tick u :: rest) :
    step s = microStep u { s with inputs := rest } := by
  rw [step_of_not_command (by simp [h]), advance_tick h]

/-! ### The run of a program line -/

/-- Every meaning is the run of its byte string (R104). -/
theorem exec_eq_runCommand (i : Instr) (s : State) : exec i s = runCommand (encode s.params i) s := by
  cases i <;> rfl

theorem drive_of_idle {s : State} (h : s.busy = false) (n : Nat) : drive n s = s := by
  cases n <;> simp [drive, h]

/-- `n` steps lead from `s` to `t`, whatever is run after them. -/
def Drives (n : Nat) (s t : State) : Prop := ∀ m, drive (n + m) s = drive m t

theorem Drives.refl (s : State) : Drives 0 s s := fun m => by simp

theorem Drives.trans {a b : Nat} {s t r : State} (h : Drives a s t) (k : Drives b t r) : Drives (a + b) s r := fun m => by
  rw [Nat.add_assoc, h, k]

theorem Drives.one {s t : State} (hb : s.busy = true) (h : advance s = .next t) : Drives 1 s t := fun m => by
  simp [Nat.add_comm 1 m, drive, hb, h]

/-- One scripted micro-step of a busy block. -/
theorem Drives.tick {s : State} {u : Draw} {rest : List Input} (hb : s.busy = true)
    (hi : s.inputs = .tick u :: rest) (hr : s.hasRule = true) :
    Drives 1 s (labelStep u { s with inputs := rest }) :=
  Drives.one hb (by rw [advance_tick hi]; exact microStep_of_hasRule hr)

/-- A run that ends with the block not busy is the whole drive, when there is fuel for it. -/
theorem Drives.drive_eq {n m : Nat} {s t : State} (h : Drives n s t) (ht : t.busy = false) (hm : n ≤ m) :
    drive m s = t := by
  obtain ⟨k, rfl⟩ : ∃ k, m = n + k := ⟨m - n, by omega⟩
  rw [h, drive_of_idle ht]

/-- An induction over a drive: what every step of a busy block keeps, the drive keeps. -/
theorem drive_induction {P : State → Prop} (hstep : ∀ s t, s.busy = true → advance s = .next t → P s → P t) :
    ∀ (n : Nat) (s : State), P s → P (drive n s) := by
  intro n
  induction n with
  | zero => exact fun s h => h
  | succ n ih =>
    intro s h
    simp only [drive]
    split
    · rename_i hb
      split
      · rename_i t ht
        exact ih t (hstep s t hb ht h)
      · exact h
      · exact h
    · exact h

/-! ### The host's run -/

/-- No step of the host's run. -/
theorem core_run_zero (s : State) : Sys2Proof.core.run 0 s = .next s := rfl

/-- One step of a machine's run that answers a next state. -/
theorem run_next (M : Host.Core) {s t : M.State} (h : M.step s = .next t) (k : Nat) :
    M.run (k + 1) s = M.run k t := by simp only [Host.Core.run, h]

/-- One step of the host's run that answers a next state. -/
theorem core_run_next {s t : State} (h : step s = .next t) (k : Nat) :
    Sys2Proof.core.run (k + 1) s = Sys2Proof.core.run k t := run_next Sys2Proof.core h k

end Sys2Proof.Machine
end

