-- ==== Sys2Proof/Laws/Transfer.lean ====
section
/-! SUPPORT. How a scripted transfer runs: the poll loops by induction on their failing answers, an exchange, the
configure and the restore steps. -/

namespace Sys2Proof.Machine

/-- The rules speak of a state by its label, kind, index and parameters only. -/
theorem hasRule_congr {s t : State} (h1 : t.step = s.step) (h2 : t.kind = s.kind) (h3 : t.idx = s.idx)
    (h4 : t.params = s.params) : t.hasRule = s.hasRule := by simp only [State.hasRule, h1, h2, h3, h4]

/-- `l` is a poll label: each of its steps is one iteration with this test, bound and successor (R123, R124). -/
def IsPoll (l next : Label) (passes : Params → Draw → Bool) (bound : Params → BitVec 14) : Prop :=
  ∀ u s, s.step = l → labelStep u s = pollOnce (passes s.params u) (bound s.params) next (s.memRead32 .sr u.sr)

theorem isPoll_adrPtx : IsPoll .adrPtx .adrPrx (fun p u => srTxEmpty p u.sr) Params.txPollMax := fun u s h => by
  simp only [labelStep, h]; rfl

theorem isPoll_adrPrx : IsPoll .adrPrx .adrDrr (fun p u => srRxNotEmpty p u.sr) Params.rxPollMax := fun u s h => by
  simp only [labelStep, h]; rfl

theorem isPoll_datPtx : IsPoll .datPtx .datPrx (fun p u => srTxEmpty p u.sr) Params.txPollMax := fun u s h => by
  simp only [labelStep, h]; rfl

theorem isPoll_datPrx : IsPoll .datPrx .datDrr (fun p u => srRxNotEmpty p u.sr) Params.rxPollMax := fun u s h => by
  simp only [labelStep, h]; rfl

/-- The Status reads of some steps, newest first. -/
def statusReads (us : List Draw) : List Event := (us.map fun u => Event.r32 .sr u.sr).reverse

/-- One scripted iteration of a poll loop. -/
theorem Drives.pollTick {l next : Label} {passes : Params → Draw → Bool} {bound : Params → BitVec 14}
    (hp : IsPoll l next passes bound) {s : State} {u : Draw} {rest : List Input} (hb : s.busy = true)
    (hl : s.step = l) (hr : s.hasRule = true) (hi : s.inputs = .tick u :: rest) :
    Drives 1 s (pollOnce (passes s.params u) (bound s.params) next ({ s with inputs := rest }.memRead32 .sr u.sr)) := by
  have h := Drives.tick hb hi hr
  rwa [hp u { s with inputs := rest } hl] at h

/-- The state after some failing iterations of a poll loop: their reads are made and counted. -/
def State.polled (s : State) (us : List Draw) (v : Word) (rest : List Input) : State :=
  { s with inputs := rest, poll := s.poll + BitVec.ofNat 14 us.length, ctl := { s.ctl with sr := v }, trace := statusReads us ++ s.trace }

/-- A poll loop's failing iterations below its bound: it stays, counting (R123, R124). -/
theorem Drives.pollFails {l next : Label} {passes : Params → Draw → Bool} {bound : Params → BitVec 14}
    (hp : IsPoll l next passes bound) (us : List Draw) :
    ∀ (s : State) (rest : List Input), s.busy = true → s.step = l → s.hasRule = true →
      s.inputs = us.map Input.tick ++ rest → (∀ u ∈ us, passes s.params u = false) →
      s.poll.toNat + us.length < (bound s.params).toNat →
      ∃ v, Drives us.length s (s.polled us v rest) := by
  induction us with
  | nil =>
    intro s rest hb hl hr hi _ _
    refine ⟨s.ctl.sr, ?_⟩
    have : s.polled [] s.ctl.sr rest = s := by
      simp only [List.map_nil, List.nil_append] at hi
      subst hi
      simp [State.polled, statusReads]
    simp only [List.length_nil]
    rw [this]
    exact Drives.refl s
  | cons u us ih =>
    intro s rest hb hl hr hi hf hlt
    have hbd := (bound s.params).isLt
    simp only [List.length_cons] at hlt
    have hne : s.poll + 1#14 ≠ bound s.params := fun h => by
      have := congrArg BitVec.toNat h; simp at this; omega
    have h1 := Drives.pollTick hp hb hl hr (by simpa using hi : s.inputs = .tick u :: (us.map Input.tick ++ rest))
    have e : pollOnce (passes s.params u) (bound s.params) next
        ({ s with inputs := us.map Input.tick ++ rest }.memRead32 .sr u.sr) =
        s.polled [u] u.sr (us.map Input.tick ++ rest) := by
      simp [pollOnce, hf u, hne, State.memRead32, State.polled, Controller.seen32, statusReads]
    rw [e] at h1
    obtain ⟨v, h2⟩ := ih (s.polled [u] u.sr (us.map Input.tick ++ rest)) rest hb hl
      ((hasRule_congr rfl rfl rfl rfl).trans hr) rfl (fun w hw => hf w (by simp [hw])) (by simp [State.polled]; omega)
    refine ⟨v, ?_⟩
    have h3 := h1.trans h2
    have e2 : (s.polled [u] u.sr (us.map Input.tick ++ rest)).polled us v rest = s.polled (u :: us) v rest := by
      simp [State.polled, statusReads, BitVec.add_assoc, ← BitVec.ofNat_add, Nat.add_comm]
    rwa [e2, Nat.add_comm 1] at h3

/-- A poll loop that ends with its successor: its last answer passes s.params within the bound, or in `legacy` mode is the last
the bound allows (R127, R128). -/
theorem Drives.pollPasses {l next : Label} {passes : Params → Draw → Bool} {bound : Params → BitVec 14}
    (hp : IsPoll l next passes bound) (us : List Draw) (w : Draw) (s : State) (rest : List Input)
    (hb : s.busy = true) (hl : s.step = l) (hr : s.hasRule = true) (h0 : s.poll = 0#14)
    (hi : s.inputs = us.map Input.tick ++ .tick w :: rest) (hf : ∀ u ∈ us, passes s.params u = false)
    (hlt : us.length < (bound s.params).toNat)
    (hw : passes s.params w = true ∨ (s.params.timeoutMode = .legacy ∧ us.length + 1 = (bound s.params).toNat)) :
    Drives (us.length + 1) s { s.polled (us ++ [w]) w.sr rest with step := next, poll := 0#14 } := by
  obtain ⟨v, h1⟩ := Drives.pollFails hp us s _ hb hl hr hi hf (by simpa [h0] using hlt)
  refine h1.trans ?_
  have h2 := Drives.pollTick hp (s := s.polled us v (.tick w :: rest)) hb hl
    ((hasRule_congr rfl rfl rfl rfl).trans hr) rfl
  have e : pollOnce (passes s.params w) (bound s.params) next
      ({ s.polled us v (.tick w :: rest) with inputs := rest }.memRead32 .sr w.sr) =
      { s.polled (us ++ [w]) w.sr rest with step := next, poll := 0#14 } := by
    cases hpw : passes s.params w with
    | true => simp [pollOnce, State.memRead32, State.polled, Controller.seen32, statusReads]
    | false =>
      obtain ⟨hm, hlen⟩ : s.params.timeoutMode = .legacy ∧ us.length + 1 = (bound s.params).toNat := by
        simpa [hpw] using hw
      have hbd := (bound s.params).isLt
      have hbound : s.poll + BitVec.ofNat 14 us.length + 1#14 = bound s.params := by
        apply BitVec.eq_of_toNat_eq; simp [h0]; omega
      simp [pollOnce, State.memRead32, State.polled, Controller.seen32, statusReads, hbound, timeout, hm]
  exact e ▸ h2

/-- A poll loop whose every allowed iteration fails, in `abort` mode (R126, R128). -/
theorem Drives.pollAborts {l next : Label} {passes : Params → Draw → Bool} {bound : Params → BitVec 14}
    (hp : IsPoll l next passes bound) (us : List Draw) (s : State) (rest : List Input)
    (hb : s.busy = true) (hl : s.step = l) (hr : s.hasRule = true) (h0 : s.poll = 0#14)
    (hm : s.params.timeoutMode = .abort) (hi : s.inputs = us.map Input.tick ++ rest)
    (hf : ∀ u ∈ us, passes s.params u = false) (hne : us ≠ []) (hlen : us.length = (bound s.params).toNat) :
    ∃ v, Drives us.length s { s.polled us v rest with step := .rstCr, poll := 0#14, tmo := true } := by
  obtain ⟨vs, w, rfl⟩ : ∃ vs w, us = vs ++ [w] := ⟨us.dropLast, us.getLast hne, (List.dropLast_append_getLast hne).symm⟩
  have hbd := (bound s.params).isLt
  simp only [List.length_append, List.length_singleton] at hlen
  obtain ⟨v, h1⟩ := Drives.pollFails hp vs s (.tick w :: rest) hb hl hr (by simpa using hi)
    (fun u hu => hf u (by simp [hu])) (by simp [h0]; omega)
  refine ⟨w.sr, ?_⟩
  rw [List.length_append, List.length_singleton]
  refine h1.trans ?_
  have h2 := Drives.pollTick hp (s := s.polled vs v (.tick w :: rest)) hb hl
    ((hasRule_congr rfl rfl rfl rfl).trans hr) rfl
  have hbound : s.poll + BitVec.ofNat 14 vs.length + 1#14 = bound s.params := by
    apply BitVec.eq_of_toNat_eq; simp [h0]; omega
  have e : pollOnce (passes s.params w) (bound s.params) next
      ({ s.polled vs v (.tick w :: rest) with inputs := rest }.memRead32 .sr w.sr) =
      { s.polled (vs ++ [w]) w.sr rest with step := .rstCr, poll := 0#14, tmo := true } := by
    simp [pollOnce, hf w, State.memRead32, State.polled, Controller.seen32, statusReads, hbound, timeout, hm]
  exact e ▸ h2

/-! ### An exchange -/

/-- Two records of the controller's registers agree on the two registers no access reaches. -/
def SameUntouched (c d : Controller) : Prop := c.gier = d.gier ∧ c.isr = d.isr

/-- The two polls and the Data-Receive step's input of an exchange that completes, from its first poll label to its
`X_DRR` label (R123, R124). -/
theorem Drives.polls {lt lr next : Label}
    (hpt : IsPoll lt lr (fun p u => srTxEmpty p u.sr) Params.txPollMax)
    (hpr : IsPoll lr next (fun p u => srRxNotEmpty p u.sr) Params.rxPollMax) (e : Exchange) (n : Nat) (s : State)
    (rest : List Input) (he : e.Completes s.params n) (hstd : s.params.Standard) (hb : s.busy = true) (hl : s.step = lt)
    (hr : s.hasRule = true) (hr' : { s with step := lr }.hasRule = true) (h0 : s.poll = 0#14)
    (hi : s.inputs = (e.txFails ++ e.txLast :: (e.rxFails ++ [e.rxLast])).map Input.tick ++ rest) :
    Drives (e.txFails.length + 1 + (e.rxFails.length + 1)) s { s with step := next, inputs := rest, poll := 0#14, ctl := { s.ctl with sr := e.rxLast.sr }, trace := statusReads (e.txFails ++ e.txLast :: (e.rxFails ++ [e.rxLast])) ++ s.trace } := by
  obtain ⟨-, ht, htl, ht1, hx, hxl, hx1⟩ := he
  have h1 := Drives.pollPasses hpt e.txFails e.txLast s ((e.rxFails ++ [e.rxLast]).map Input.tick ++ rest) hb hl hr h0
    (by simp [hi]) (fun u hu => (srTxEmpty_eq hstd _).trans (ht u hu)) htl (by rwa [srTxEmpty_eq hstd])
  have h2 := Drives.pollPasses hpr e.rxFails e.rxLast
    { s.polled (e.txFails ++ [e.txLast]) e.txLast.sr ((e.rxFails ++ [e.rxLast]).map Input.tick ++ rest) with step := lr, poll := 0#14 }
    rest hb rfl ((hasRule_congr rfl rfl rfl rfl).trans hr') rfl (by simp [State.polled])
    (fun u hu => (srRxNotEmpty_eq hstd _).trans (by rw [hx u hu]; rfl)) hxl
    (hx1.imp (fun h => (srRxNotEmpty_eq hstd _).trans (by rw [h]; rfl)) id)
  have h3 := h1.trans h2
  convert h3 using 1
  simp [State.polled, statusReads]

/-- A step whose next state is known by its label. -/
theorem Drives.label {s t : State} {u : Draw} {rest : List Input} (hb : s.busy = true)
    (hi : s.inputs = .tick u :: rest) (hr : s.hasRule = true) (h : labelStep u { s with inputs := rest } = t) :
    Drives 1 s t := h ▸ Drives.tick hb hi hr

/-- The address exchange (R151), from `ADR_DTR` to the first `DAT_DTR`. -/
theorem Drives.addressExchange (e : Exchange) (s : State) (rest : List Input) (he : e.Completes s.params 3)
    (hstd : s.params.Standard) (hb : s.busy = true) (hl : s.step = .adrDtr) (hk : movesWord s.kind = true)
    (hi : s.inputs = e.draws.map Input.tick ++ rest) (tx : Nat → Byte) :
    ∃ c, SameUntouched c s.ctl ∧ Drives e.draws.length s { s with step := .datDtr, idx := firstIdx s.params s.kind, poll := 0#14, inputs := rest, ctl := c, trace := (exchangeWrites (cwRun s.params s.kind) (abyte s.params s.kind s.addr) tx 0 ++ e.reads).reverse ++ s.trace } := by
  obtain ⟨w0, w1, w2, hw⟩ := List.length_eq_three.1 he.1
  simp only [Exchange.draws, hw, List.cons_append, List.nil_append, List.map_cons] at hi
  have rule : ∀ l : Label, l = .adrDtr ∨ l = .adrSsr ∨ l = .adrCr ∨ l = .adrPtx ∨ l = .adrPrx ∨ l = .adrDrr →
      ∀ t : State, t.step = l → t.kind = s.kind → t.hasRule = true := by
    intro l hl t h1 h2
    rcases hl with rfl | rfl | rfl | rfl | rfl | rfl <;> simp [State.hasRule, h1, h2, hk]
  let r0 := ((e.txFails ++ e.txLast :: (e.rxFails ++ [e.rxLast, e.data])).map Input.tick ++ rest)
  have d1 := Drives.label (t := { s with step := .adrSsr, inputs := .tick w1 :: .tick w2 :: r0, ctl := { s.ctl with dtr := abyte s.params s.kind s.addr }, trace := .w8 .dtr (abyte s.params s.kind s.addr) :: s.trace })
    hb hi (rule _ (.inl rfl) s hl rfl) (by simp [labelStep, hl, xDtr, State.memWrite8, Controller.seen8, r0])
  have d2 := d1.trans (Drives.label (t := { s with step := .adrCr, inputs := .tick w2 :: r0, ctl := { s.ctl with dtr := abyte s.params s.kind s.addr, ssr := s.params.ssAssert }, trace := .w32 .ssr s.params.ssAssert :: .w8 .dtr (abyte s.params s.kind s.addr) :: s.trace })
    hb rfl (rule .adrSsr (by simp) _ rfl rfl) (by simp [labelStep, adrSsr, State.memWrite32, Controller.seen32]))
  have d3 := d2.trans (Drives.label (t := { s with step := .adrPtx, poll := 0#14, inputs := r0, ctl := { s.ctl with dtr := abyte s.params s.kind s.addr, ssr := s.params.ssAssert, cr := cwRun s.params s.kind }, trace := .w32 .cr (cwRun s.params s.kind) :: .w32 .ssr s.params.ssAssert :: .w8 .dtr (abyte s.params s.kind s.addr) :: s.trace })
    hb rfl (rule .adrCr (by simp) _ rfl rfl) (by simp [labelStep, xCr, State.memWrite32, Controller.seen32]))
  have d4 := d3.trans (Drives.polls isPoll_adrPtx isPoll_adrPrx e 3 _ (.tick e.data :: rest) he hstd hb rfl
    (rule .adrPtx (by simp) _ rfl rfl) (rule .adrPrx (by simp) _ rfl rfl) rfl (by simp [r0]))
  have d5 := d4.trans (Drives.label hb rfl (rule .adrDrr (by simp) _ rfl rfl) rfl)
  refine ⟨{ s.ctl with dtr := abyte s.params s.kind s.addr, ssr := s.params.ssAssert, cr := cwRun s.params s.kind, sr := e.rxLast.sr, drr := e.data.drr }, ⟨rfl, rfl⟩, ?_⟩
  convert d5 using 1
  · simp [Exchange.draws, hw]; omega
  · simp [labelStep, adrDrr, State.memRead8, Controller.seen8, exchangeWrites, hstd.ssAssert, Exchange.reads, statusReads]

/-- A data exchange (R153 to R157), from one `DAT_DTR` to the next or to `RST_CR`. -/
theorem Drives.dataExchange (e : Exchange) (s : State) (rest : List Input) (he : e.Completes s.params 2)
    (hstd : s.params.Standard) (hb : s.busy = true) (hl : s.step = .datDtr) (hk : idxInRange s.params s.kind s.idx = true)
    (hi : s.inputs = e.draws.map Input.tick ++ rest) :
    ∃ c, SameUntouched c s.ctl ∧ Drives e.draws.length s (nextDataByte (storeReceived e.data.drr { s with step := .datDrr, poll := 0#14, inputs := rest, ctl := c, trace := ([Event.w8 .dtr (dataByte s), .w32 .cr (cwRun s.params s.kind)] ++ e.reads).reverse ++ s.trace })) := by
  obtain ⟨w0, w1, hw⟩ := List.length_eq_two.1 he.1
  simp only [Exchange.draws, hw, List.cons_append, List.nil_append, List.map_cons] at hi
  have rule : ∀ l : Label, l = .datDtr ∨ l = .datCr ∨ l = .datPtx ∨ l = .datPrx ∨ l = .datDrr →
      ∀ t : State, t.step = l → t.kind = s.kind → t.idx = s.idx → t.params = s.params → t.hasRule = true := by
    intro l hl t h1 h2 h3 h4
    rcases hl with rfl | rfl | rfl | rfl | rfl <;> simp [State.hasRule, h1, h2, h3, h4, hk]
  let r0 := ((e.txFails ++ e.txLast :: (e.rxFails ++ [e.rxLast, e.data])).map Input.tick ++ rest)
  have d1 := Drives.label (t := { s with step := .datCr, inputs := .tick w1 :: r0, ctl := { s.ctl with dtr := dataByte s }, trace := .w8 .dtr (dataByte s) :: s.trace })
    hb hi (rule _ (.inl rfl) s hl rfl rfl rfl) (by simp [labelStep, hl, xDtr, State.memWrite8, Controller.seen8, dataByte, r0])
  have d2 := d1.trans (Drives.label (t := { s with step := .datPtx, poll := 0#14, inputs := r0, ctl := { s.ctl with dtr := dataByte s, cr := cwRun s.params s.kind }, trace := .w32 .cr (cwRun s.params s.kind) :: .w8 .dtr (dataByte s) :: s.trace })
    hb rfl (rule .datCr (by simp) _ rfl rfl rfl rfl) (by simp [labelStep, xCr, State.memWrite32, Controller.seen32]))
  have d3 := d2.trans (Drives.polls isPoll_datPtx isPoll_datPrx e 2 _ (.tick e.data :: rest) he hstd hb rfl
    (rule .datPtx (by simp) _ rfl rfl rfl rfl) (rule .datPrx (by simp) _ rfl rfl rfl rfl) rfl (by simp [r0]))
  have d4 := d3.trans (Drives.label hb rfl (rule .datDrr (by simp) _ rfl rfl rfl rfl) rfl)
  refine ⟨{ s.ctl with dtr := dataByte s, cr := cwRun s.params s.kind, sr := e.rxLast.sr, drr := e.data.drr }, ⟨rfl, rfl⟩, ?_⟩
  convert d4 using 1
  · simp [Exchange.draws, hw]; omega
  · simp [labelStep, datDrr, State.memRead8, Controller.seen8, Exchange.reads, statusReads]

/-! ### The data phase and the ends of a transfer -/

/-- The Command Buffer after the data exchanges from number `j` on: a read stores each answer at `4 - j` (R155, R163). -/
def receiveAll (k : Kind) : Memory → Nat → List Exchange → Memory
  | m, _, [] => m
  | m, j, e :: es => receiveAll k (if k = .rd then Memory.write m (4 - j) e.data.drr else m) (j + 1) es

/-- The position of data exchange `j` in the Command Buffer (R26, R163). -/
def dataPosition (k : Kind) (j : Nat) : Nat := if k = .rd then 4 - j else 6 - j

theorem storeReceived_eq (b : Byte) (s : State) :
    storeReceived b s = { s with cb := if s.kind = .rd then Memory.write s.cb s.idx.toNat b else s.cb } := by
  unfold storeReceived
  split <;> rfl

/-- A kind that moves a word is a read or a write. -/
theorem kind_of_movesWord {k : Kind} (h : movesWord k = true) : k = .rd ∨ k = .wr := by
  cases k <;> simp [movesWord] at h ⊢

theorem idxInRange_of_position {p : Params} {k : Kind} {i : BitVec 3} {j : Nat} (hstd : p.Standard) (hk : movesWord k = true) (hj : 1 ≤ j) (hj4 : j ≤ 4)
    (h : i.toNat = dataPosition k j) : idxInRange p k i = true := by
  rcases kind_of_movesWord hk with rfl | rfl <;> simp [dataPosition] at h <;> simp [idxInRange, hstd.wordBytes] <;> omega

theorem lastIdx_iff_position {k : Kind} {i : BitVec 3} {j : Nat} (hk : movesWord k = true) (hj4 : j ≤ 4)
    (h : i.toNat = dataPosition k j) : i = lastIdx k ↔ j = 4 := by
  rw [← BitVec.toNat_inj, h]
  rcases kind_of_movesWord hk with rfl | rfl <;> simp [dataPosition, lastIdx] <;> omega

theorem position_pred {k : Kind} {i : BitVec 3} {j : Nat} (hk : movesWord k = true) (hj : j < 4)
    (h : i.toNat = dataPosition k j) : (i - 1#3).toNat = dataPosition k (j + 1) := by
  have hi := i.isLt
  rw [BitVec.toNat_sub]
  rcases kind_of_movesWord hk with rfl | rfl <;> simp [dataPosition] at h ⊢ <;> omega

/-- Data exchange number `j`, by its position: what it sends, what it stores, where it goes on (R153 to R157). -/
theorem Drives.dataExchangeAt (tx : Nat → Byte) (ab : Byte) (e : Exchange) (j : Nat) (s : State) (rest : List Input)
    (hj : 1 ≤ j) (hj4 : j ≤ 4) (he : e.Completes s.params 2) (hstd : s.params.Standard) (hb : s.busy = true) (hl : s.step = .datDtr)
    (hk : movesWord s.kind = true) (hidx : s.idx.toNat = dataPosition s.kind j)
    (htx : tx j = if s.kind = .wr then Memory.read s.cb (6 - j) else 0x00#8)
    (hi : s.inputs = e.draws.map Input.tick ++ rest) :
    ∃ c, SameUntouched c s.ctl ∧ Drives e.draws.length s { s with step := if j = 4 then .rstCr else .datDtr, idx := if j = 4 then s.idx else s.idx - 1#3, poll := 0#14, inputs := rest, ctl := c, cb := if s.kind = .rd then Memory.write s.cb (4 - j) e.data.drr else s.cb, trace := (exchangeWrites (cwRun s.params s.kind) ab tx j ++ e.reads).reverse ++ s.trace } := by
  obtain ⟨c, hc, d⟩ := Drives.dataExchange e s rest he hstd hb hl (idxInRange_of_position hstd hk hj hj4 hidx) hi
  refine ⟨c, hc, ?_⟩
  have htxj : dataByte s = tx j := by
    rw [htx, dataByte, hidx, dataPosition]
    rcases kind_of_movesWord hk with h | h <;> simp [h, hstd.dummyByte]
  have hcb : (if s.kind = .rd then Memory.write s.cb s.idx.toNat e.data.drr else s.cb) =
      (if s.kind = .rd then Memory.write s.cb (4 - j) e.data.drr else s.cb) := by
    split
    · rename_i h; rw [hidx, dataPosition, if_pos h]
    · rfl
  have hw : exchangeWrites (cwRun s.params s.kind) ab tx j = [Event.w8 .dtr (dataByte s), .w32 .cr (cwRun s.params s.kind)] := by
    simp [exchangeWrites, show j ≠ 0 by omega, htxj]
  rw [storeReceived_eq, ← hw] at d
  simp only at d
  rw [hcb] at d
  by_cases h4 : j = 4
  · simp only [nextDataByte] at d
    rw [if_pos ((lastIdx_iff_position hk hj4 hidx).2 h4)] at d
    simpa only [h4, ↓reduceIte] using d
  · simp only [nextDataByte] at d
    rw [if_neg (mt (lastIdx_iff_position hk hj4 hidx).1 h4)] at d
    simpa only [h4, ↓reduceIte] using d

/-- The data exchanges from number `j` on (R157, R163). -/
theorem Drives.dataExchanges (tx : Nat → Byte) (ab : Byte) (es : List Exchange) :
    ∀ (j : Nat) (s : State) (rest : List Input), 1 ≤ j → j + es.length ≤ 5 →
      (∀ e ∈ es, e.Completes s.params 2) → s.params.Standard → s.busy = true → s.step = (if j = 5 then .rstCr else .datDtr) →
      s.poll = 0#14 → movesWord s.kind = true → s.idx.toNat = dataPosition s.kind (min j 4) →
      (∀ i, j ≤ i → i ≤ 4 → tx i = if s.kind = .wr then Memory.read s.cb (6 - i) else 0x00#8) →
      s.inputs = (exchangesDraws es).map Input.tick ++ rest →
      ∃ c i, SameUntouched c s.ctl ∧ i.toNat = dataPosition s.kind (min (j + es.length) 4) ∧
        Drives (exchangesDraws es).length s { s with step := if j + es.length = 5 then .rstCr else .datDtr, idx := i, poll := 0#14, inputs := rest, ctl := c, cb := receiveAll s.kind s.cb j es, trace := (exchangesAccesses (cwRun s.params s.kind) ab tx j es).reverse ++ s.trace } := by
  induction es with
  | nil =>
    intro j s rest hj hlen _ _ hb hl h0 hk hidx _ hi
    refine ⟨s.ctl, s.idx, ⟨rfl, rfl⟩, hidx, ?_⟩
    simp only [exchangesDraws, List.map_nil, List.nil_append] at hi
    subst hi
    have e0 : { s with step := if j + ([] : List Exchange).length = 5 then .rstCr else .datDtr, poll := 0#14, cb := receiveAll s.kind s.cb j [], trace := (exchangesAccesses (cwRun s.params s.kind) ab tx j []).reverse ++ s.trace } = s := by
      simp [receiveAll, exchangesAccesses, ← hl, ← h0]
    simp only [exchangesDraws, List.length_nil]
    exact e0.symm ▸ Drives.refl s
  | cons e es ih =>
    intro j s rest hj hlen hp hstd hb hl h0 hk hidx htx hi
    simp only [List.length_cons] at hlen
    have e1 : j + (e :: es).length = j + 1 + es.length := by simp only [List.length_cons]; omega
    rw [if_neg (by omega)] at hl
    rw [Nat.min_eq_left (by omega : j ≤ 4)] at hidx
    obtain ⟨c, hc, d1⟩ := Drives.dataExchangeAt tx ab e j s ((exchangesDraws es).map Input.tick ++ rest) hj (by omega)
      (hp e (by simp)) hstd hb hl hk hidx (htx j (Nat.le_refl j) (by omega)) (by simpa [exchangesDraws] using hi)
    obtain ⟨c', i, hc', h4, d2⟩ := ih (j + 1) { s with step := if j = 4 then .rstCr else .datDtr, idx := if j = 4 then s.idx else s.idx - 1#3, poll := 0#14, inputs := (exchangesDraws es).map Input.tick ++ rest, ctl := c, cb := if s.kind = .rd then Memory.write s.cb (4 - j) e.data.drr else s.cb, trace := (exchangeWrites (cwRun s.params s.kind) ab tx j ++ e.reads).reverse ++ s.trace }
      rest (by omega) (by omega) (fun e' he' => hp e' (by simp [he'])) hstd hb (by simp) rfl hk
      (by
        by_cases h : j = 4
        · simp only [h, ↓reduceIte]; rw [hidx, h]; rfl
        · rw [Nat.min_eq_left (by omega : j + 1 ≤ 4)]
          simp only [h, ↓reduceIte]
          exact position_pred hk (by omega) hidx)
      (fun i hi1 hi2 => by
        rw [htx i (by omega) hi2]
        rcases kind_of_movesWord hk with h | h <;> simp [h]) rfl
    refine ⟨c', i, ⟨hc'.1.trans hc.1, hc'.2.trans hc.2⟩, e1 ▸ h4, ?_⟩
    rw [e1]
    convert d1.trans d2 using 1
    · simp [exchangesDraws]
    · simp [receiveAll, exchangesAccesses]

/-- The configure steps (R146 to R148), from `CFG_IER` to `ADR_DTR`. -/
theorem Drives.configure (us : List Draw) (s : State) (rest : List Input) (hu : us.length = 3) (hb : s.busy = true)
    (hl : s.step = .cfgIer) (hk : movesWord s.kind = true) (hi : s.inputs = us.map Input.tick ++ rest) :
    Drives 3 s { s with step := .adrDtr, inputs := rest, ctl := { s.ctl with ier := ierOff, ssr := s.params.ssDeassert, cr := cwCfg s.params s.kind }, trace := [Event.w32 .cr (cwCfg s.params s.kind), .w32 .ssr s.params.ssDeassert, .w32 .ier ierOff] ++ s.trace } := by
  obtain ⟨w0, w1, w2, rfl⟩ := List.length_eq_three.1 hu
  have rule : ∀ l : Label, l = .cfgIer ∨ l = .cfgSsr ∨ l = .cfgCr →
      ∀ t : State, t.step = l → t.kind = s.kind → t.hasRule = true := by
    intro l hl t h1 h2
    rcases hl with rfl | rfl | rfl <;> simp [State.hasRule, h1, h2, hk]
  have d1 := Drives.label (t := cfgIer { s with inputs := .tick w1 :: .tick w2 :: rest }) hb hi (rule _ (.inl rfl) s hl rfl)
    (by simp [labelStep, hl])
  have d2 := d1.trans (Drives.label hb rfl (rule .cfgSsr (by simp) _ rfl rfl) rfl)
  exact d2.trans (Drives.label hb rfl (rule .cfgCr (by simp) _ rfl rfl) rfl)

/-- The restore steps and the completion (R158 to R160), from `RST_CR` to `IDLE`. -/
theorem Drives.restore (us : List Draw) (s : State) (rest : List Input) (hu : us.length = 3) (hb : s.busy = true)
    (hl : s.step = .rstCr) (hk : movesWord s.kind = true) (hi : s.inputs = us.map Input.tick ++ rest) :
    Drives 3 s { s with step := .idle, busy := false, tmo := false, status := completionCode s.tmo, cbLen := completedLen s, inputs := rest, ctl := { s.ctl with cr := cwCfg s.params s.kind, ssr := s.params.ssDeassert, ier := ierOn s.params }, trace := [Event.done (completionCode s.tmo), .w32 .ier (ierOn s.params), .w32 .ssr s.params.ssDeassert, .w32 .cr (cwCfg s.params s.kind)] ++ s.trace } := by
  obtain ⟨w0, w1, w2, rfl⟩ := List.length_eq_three.1 hu
  have rule : ∀ l : Label, l = .rstCr ∨ l = .rstSsr ∨ l = .rstIer →
      ∀ t : State, t.step = l → t.kind = s.kind → t.hasRule = true := by
    intro l hl t h1 h2
    rcases hl with rfl | rfl | rfl <;> simp [State.hasRule, h1, h2, hk]
  have d1 := Drives.label (t := rstCr { s with inputs := .tick w1 :: .tick w2 :: rest }) hb hi (rule _ (.inl rfl) s hl rfl)
    (by simp [labelStep, hl])
  have d2 := d1.trans (Drives.label hb rfl (rule .rstSsr (by simp) _ rfl rfl) rfl)
  exact d2.trans (Drives.label hb rfl (rule .rstIer (by simp) _ rfl rfl) rfl)

/-- The polls of an exchange that times out (R126), from its first poll label to `RST_CR`. -/
theorem Drives.cutPolls {lt lr next : Label}
    (hpt : IsPoll lt lr (fun p u => srTxEmpty p u.sr) Params.txPollMax)
    (hpr : IsPoll lr next (fun p u => srRxNotEmpty p u.sr) Params.rxPollMax) (e : CutExchange) (n : Nat) (s : State)
    (rest : List Input) (he : e.TimesOut s.params n) (hm : s.params.timeoutMode = .abort) (hw : paramsWf s.params)
    (hstd : s.params.Standard) (hb : s.busy = true) (hl : s.step = lt) (hr : s.hasRule = true) (hr' : { s with step := lr }.hasRule = true)
    (h0 : s.poll = 0#14) (hi : s.inputs = (e.txFails ++ e.receiveDraws).map Input.tick ++ rest) :
    ∃ v, Drives (e.txFails ++ e.receiveDraws).length s { s with step := .rstCr, inputs := rest, poll := 0#14, tmo := true, ctl := { s.ctl with sr := v }, trace := statusReads (e.txFails ++ e.receiveDraws) ++ s.trace } := by
  obtain ⟨-, ht, hnone, hsome⟩ := he
  have pos : ∀ b : BitVec 14, b ≠ 0#14 → 0 < b.toNat := fun b hb => by
    rcases Nat.eq_zero_or_pos b.toNat with h | h
    · exact absurd (BitVec.eq_of_toNat_eq h) hb
    · exact h
  cases hrc : e.receive with
  | none =>
    have hlen := hnone hrc
    have hd : e.receiveDraws = [] := by simp [CutExchange.receiveDraws, hrc]
    rw [hd, List.append_nil] at hi ⊢
    obtain ⟨v, d⟩ := Drives.pollAborts hpt e.txFails s rest hb hl hr h0 hm hi
      (fun u hu => (srTxEmpty_eq hstd _).trans (ht u hu))
      (by intro h; rw [h] at hlen; have := pos _ hw.1; simp at hlen; omega) hlen
    exact ⟨v, d⟩
  | some r =>
    obtain ⟨hlt, hr1, hr2, hrl⟩ := hsome r (by simp [hrc])
    have hd : e.receiveDraws = r.1 :: r.2 := by simp [CutExchange.receiveDraws, hrc]
    rw [hd] at hi ⊢
    have d1 := Drives.pollPasses hpt e.txFails r.1 s (r.2.map Input.tick ++ rest) hb hl hr h0 (by simp [hi])
      (fun u hu => (srTxEmpty_eq hstd _).trans (ht u hu)) hlt (.inl ((srTxEmpty_eq hstd _).trans hr1))
    obtain ⟨v, d2⟩ := Drives.pollAborts hpr r.2
      { s.polled (e.txFails ++ [r.1]) r.1.sr (r.2.map Input.tick ++ rest) with step := lr, poll := 0#14 } rest hb rfl
      ((hasRule_congr rfl rfl rfl rfl).trans hr') rfl hm rfl (fun u hu => (srRxNotEmpty_eq hstd _).trans (by rw [hr2 u hu]; rfl))
      (by intro h; rw [h] at hrl; have := pos _ hw.2.1; simp at hrl; omega) hrl
    refine ⟨v, ?_⟩
    convert d1.trans d2 using 1
    · simp; omega
    · simp [State.polled, statusReads]

/-- The address exchange, timing out (R126). -/
theorem Drives.cutAddress (tx : Nat → Byte) (e : CutExchange) (s : State) (rest : List Input) (he : e.TimesOut s.params 3)
    (hm : s.params.timeoutMode = .abort) (hw : paramsWf s.params) (hstd : s.params.Standard) (hb : s.busy = true) (hl : s.step = .adrDtr)
    (hk : movesWord s.kind = true) (hi : s.inputs = e.draws.map Input.tick ++ rest) :
    ∃ c, SameUntouched c s.ctl ∧ Drives e.draws.length s { s with step := .rstCr, poll := 0#14, tmo := true, inputs := rest, ctl := c, trace := (exchangeWrites (cwRun s.params s.kind) (abyte s.params s.kind s.addr) tx 0 ++ e.reads).reverse ++ s.trace } := by
  obtain ⟨w0, w1, w2, hws⟩ := List.length_eq_three.1 he.1
  simp only [CutExchange.draws, hws, List.cons_append, List.nil_append, List.map_cons] at hi
  have rule : ∀ l : Label, l = .adrDtr ∨ l = .adrSsr ∨ l = .adrCr ∨ l = .adrPtx ∨ l = .adrPrx →
      ∀ t : State, t.step = l → t.kind = s.kind → t.hasRule = true := by
    intro l hl t h1 h2
    rcases hl with rfl | rfl | rfl | rfl | rfl <;> simp [State.hasRule, h1, h2, hk]
  let r0 := (e.txFails ++ e.receiveDraws).map Input.tick ++ rest
  have d1 := Drives.label (t := { s with step := .adrSsr, inputs := .tick w1 :: .tick w2 :: r0, ctl := { s.ctl with dtr := abyte s.params s.kind s.addr }, trace := .w8 .dtr (abyte s.params s.kind s.addr) :: s.trace })
    hb hi (rule _ (.inl rfl) s hl rfl) (by simp [labelStep, hl, xDtr, State.memWrite8, Controller.seen8, r0])
  have d2 := d1.trans (Drives.label (t := { s with step := .adrCr, inputs := .tick w2 :: r0, ctl := { s.ctl with dtr := abyte s.params s.kind s.addr, ssr := s.params.ssAssert }, trace := .w32 .ssr s.params.ssAssert :: .w8 .dtr (abyte s.params s.kind s.addr) :: s.trace })
    hb rfl (rule .adrSsr (by simp) _ rfl rfl) (by simp [labelStep, adrSsr, State.memWrite32, Controller.seen32]))
  have d3 := d2.trans (Drives.label (t := { s with step := .adrPtx, poll := 0#14, inputs := r0, ctl := { s.ctl with dtr := abyte s.params s.kind s.addr, ssr := s.params.ssAssert, cr := cwRun s.params s.kind }, trace := .w32 .cr (cwRun s.params s.kind) :: .w32 .ssr s.params.ssAssert :: .w8 .dtr (abyte s.params s.kind s.addr) :: s.trace })
    hb rfl (rule .adrCr (by simp) _ rfl rfl) (by simp [labelStep, xCr, State.memWrite32, Controller.seen32]))
  obtain ⟨v, d4⟩ := Drives.cutPolls isPoll_adrPtx isPoll_adrPrx e 3
    { s with step := .adrPtx, poll := 0#14, inputs := r0, ctl := { s.ctl with dtr := abyte s.params s.kind s.addr, ssr := s.params.ssAssert, cr := cwRun s.params s.kind }, trace := .w32 .cr (cwRun s.params s.kind) :: .w32 .ssr s.params.ssAssert :: .w8 .dtr (abyte s.params s.kind s.addr) :: s.trace }
    rest he hm hw hstd hb rfl (rule .adrPtx (by simp) _ rfl rfl) (rule .adrPrx (by simp) _ rfl rfl) rfl rfl
  refine ⟨{ s.ctl with dtr := abyte s.params s.kind s.addr, ssr := s.params.ssAssert, cr := cwRun s.params s.kind, sr := v }, ⟨rfl, rfl⟩, ?_⟩
  convert d3.trans d4 using 1
  · simp [CutExchange.draws, hws]; omega
  · simp [exchangeWrites, hstd.ssAssert, CutExchange.reads, statusReads]

/-- Data exchange number `j`, timing out (R126). -/
theorem Drives.cutData (tx : Nat → Byte) (ab : Byte) (e : CutExchange) (j : Nat) (s : State) (rest : List Input)
    (hj : 1 ≤ j) (hj4 : j ≤ 4) (he : e.TimesOut s.params 2) (hm : s.params.timeoutMode = .abort)
    (hw : paramsWf s.params) (hstd : s.params.Standard) (hb : s.busy = true) (hl : s.step = .datDtr) (hk : movesWord s.kind = true)
    (hidx : s.idx.toNat = dataPosition s.kind j)
    (htx : tx j = if s.kind = .wr then Memory.read s.cb (6 - j) else 0x00#8)
    (hi : s.inputs = e.draws.map Input.tick ++ rest) :
    ∃ c, SameUntouched c s.ctl ∧ Drives e.draws.length s { s with step := .rstCr, poll := 0#14, tmo := true, inputs := rest, ctl := c, trace := (exchangeWrites (cwRun s.params s.kind) ab tx j ++ e.reads).reverse ++ s.trace } := by
  obtain ⟨w0, w1, hws⟩ := List.length_eq_two.1 he.1
  simp only [CutExchange.draws, hws, List.cons_append, List.nil_append, List.map_cons] at hi
  have rule : ∀ l : Label, l = .datDtr ∨ l = .datCr ∨ l = .datPtx ∨ l = .datPrx →
      ∀ t : State, t.step = l → t.kind = s.kind → t.idx = s.idx → t.params = s.params → t.hasRule = true := by
    intro l hl t h1 h2 h3 h4
    rcases hl with rfl | rfl | rfl | rfl <;>
      simp [State.hasRule, h1, h2, h3, h4, idxInRange_of_position hstd hk hj hj4 hidx]
  have htxj : dataByte s = tx j := by
    rw [htx, dataByte, hidx, dataPosition]
    rcases kind_of_movesWord hk with h | h <;> simp [h, hstd.dummyByte]
  let r0 := (e.txFails ++ e.receiveDraws).map Input.tick ++ rest
  have d1 := Drives.label (t := { s with step := .datCr, inputs := .tick w1 :: r0, ctl := { s.ctl with dtr := dataByte s }, trace := .w8 .dtr (dataByte s) :: s.trace })
    hb hi (rule _ (.inl rfl) s hl rfl rfl rfl) (by simp [labelStep, hl, xDtr, State.memWrite8, Controller.seen8, dataByte, r0])
  have d2 := d1.trans (Drives.label (t := { s with step := .datPtx, poll := 0#14, inputs := r0, ctl := { s.ctl with dtr := dataByte s, cr := cwRun s.params s.kind }, trace := .w32 .cr (cwRun s.params s.kind) :: .w8 .dtr (dataByte s) :: s.trace })
    hb rfl (rule .datCr (by simp) _ rfl rfl rfl rfl) (by simp [labelStep, xCr, State.memWrite32, Controller.seen32]))
  obtain ⟨v, d3⟩ := Drives.cutPolls isPoll_datPtx isPoll_datPrx e 2
    { s with step := .datPtx, poll := 0#14, inputs := r0, ctl := { s.ctl with dtr := dataByte s, cr := cwRun s.params s.kind }, trace := .w32 .cr (cwRun s.params s.kind) :: .w8 .dtr (dataByte s) :: s.trace }
    rest he hm hw hstd hb rfl (rule .datPtx (by simp) _ rfl rfl rfl rfl) (rule .datPrx (by simp) _ rfl rfl rfl rfl) rfl rfl
  refine ⟨{ s.ctl with dtr := dataByte s, cr := cwRun s.params s.kind, sr := v }, ⟨rfl, rfl⟩, ?_⟩
  convert d2.trans d3 using 1
  · simp [CutExchange.draws, hws]; omega
  · simp [exchangeWrites, show j ≠ 0 by omega, htxj, CutExchange.reads, statusReads]

/-! ### A whole transfer -/

/-- A WriteWord stores nothing it receives (R156). -/
theorem receiveAll_wr (m : Memory) (j es) : receiveAll .wr m j es = m := by
  induction es generalizing m j with
  | nil => rfl
  | cons e es ih => simp [receiveAll, ih]

theorem receiveAll_wf (k : Kind) (es : List Exchange) :
    ∀ (m : Memory) (j : Nat), Memory.wf m → Memory.wf (receiveAll k m j es) := by
  induction es with
  | nil => intro m j h; exact h
  | cons e es ih =>
    intro m j h
    simp only [receiveAll]
    apply ih
    split
    · exact Memory.write_wf m h _ _
    · exact h

/-- What each byte of the Command Buffer holds after a ReadWord's data exchanges (R155, R163). -/
theorem read_receiveAll (es : List Exchange) : ∀ (m : Memory) (j : Nat), Memory.wf m → 1 ≤ j → j + es.length ≤ 5 → ∀ k,
    Memory.read (receiveAll .rd m j es) k =
      if k + j ≤ 4 then ((es[4 - j - k]?).map (fun e => e.data.drr)).getD (Memory.read m k) else Memory.read m k := by
  induction es with
  | nil => intro m j _ _ _ k; simp [receiveAll]
  | cons e es ih =>
    intro m j hm hj hl k
    simp only [List.length_cons] at hl
    simp only [receiveAll, ↓reduceIte]
    rw [ih _ (j+1) (Memory.write_wf m hm _ _) (by omega) (by omega), Memory.read_write m hm]
    by_cases h1 : k + (j+1) ≤ 4
    · have : 4 - j - k = (4 - (j+1) - k) + 1 := by omega
      simp [h1, show k + j ≤ 4 by omega, this, show 4 - j ≠ k by omega]
    · by_cases h2 : k + j ≤ 4
      · have : k = 4 - j := by omega
        subst this
        simp [h1, h2]
      · simp [h1, h2, show 4 - j ≠ k by omega]


/-- The state a transfer is in at `ADR_DTR`. -/
def atAddress (s : State) (rest : List Input) : State :=
  { s with step := .adrDtr, inputs := rest, ctl := { s.ctl with ier := ierOff, ssr := s.params.ssDeassert, cr := cwCfg s.params s.kind }, trace := [Event.w32 .cr (cwCfg s.params s.kind), .w32 .ssr s.params.ssDeassert, .w32 .ier ierOff] ++ s.trace }

/-- The `IDLE` step and the configure steps. -/
theorem Drives.start (x : Transfer) (s : State) (rest : List Input) (hb : s.busy = true) (hs : s.step = .idle)
    (hk : movesWord s.kind = true) (hw : commandWins s.params.arbOrder x.start = true) (hc : x.configure.length = 3)
    (hi : s.inputs = .tick x.start :: (x.configure.map Input.tick ++ rest)) : Drives 4 s (atAddress s rest) := by
  have d1 := Drives.label (t := { s with step := .cfgIer, inputs := x.configure.map Input.tick ++ rest }) hb hi (by simp [State.hasRule, hs])
    (by simp only [labelStep, hs, idleStep, hb, hw]; rcases kind_of_movesWord hk with h | h <;> simp [h, firstLabel])
  exact d1.trans (Drives.configure x.configure _ rest hc hb rfl hk rfl)

/-- The address exchange and some data exchanges that pass. -/
theorem Drives.exchangesFrom (tx : Nat → Byte) (e : Exchange) (es : List Exchange) (s : State) (rest : List Input)
    (hstd : s.params.Standard) (hb : s.busy = true) (hl : s.step = .adrDtr) (hk : movesWord s.kind = true) (hlen : es.length ≤ 4)
    (hp : ∀ (j : Nat) (d : Exchange), (e :: es)[j]? = some d → d.Completes s.params (exchangeWriteCount j))
    (htx : ∀ i, 1 ≤ i → i ≤ 4 → tx i = if s.kind = .wr then Memory.read s.cb (6 - i) else 0x00#8)
    (hi : s.inputs = (exchangesDraws (e :: es)).map Input.tick ++ rest) :
    ∃ c i, SameUntouched c s.ctl ∧ i.toNat = dataPosition s.kind (min (1 + es.length) 4) ∧
      Drives (exchangesDraws (e :: es)).length s { s with step := if es.length = 4 then .rstCr else .datDtr, idx := i, poll := 0#14, inputs := rest, ctl := c, cb := receiveAll s.kind s.cb 1 es, trace := (exchangesAccesses (cwRun s.params s.kind) (abyte s.params s.kind s.addr) tx 0 (e :: es)).reverse ++ s.trace } := by
  obtain ⟨c1, hc1, d1⟩ := Drives.addressExchange e s ((exchangesDraws es).map Input.tick ++ rest)
    (by simpa [exchangeWriteCount] using hp 0 e rfl) hstd hb hl hk (by simpa [exchangesDraws] using hi) tx
  obtain ⟨c, i, hc, hpos, d2⟩ := Drives.dataExchanges tx (abyte s.params s.kind s.addr) es 1
    { s with step := .datDtr, idx := firstIdx s.params s.kind, poll := 0#14, inputs := (exchangesDraws es).map Input.tick ++ rest, ctl := c1, trace := (exchangeWrites (cwRun s.params s.kind) (abyte s.params s.kind s.addr) tx 0 ++ e.reads).reverse ++ s.trace }
    rest (Nat.le_refl 1) (by omega)
    (fun d hd => by
      obtain ⟨n, hn, rfl⟩ := List.getElem_of_mem hd
      simpa [exchangeWriteCount] using hp (n + 1) es[n] (by simp [hn]))
    hstd hb rfl rfl hk (by rcases kind_of_movesWord hk with h | h <;> simp [h, firstIdx, hstd.wordBytes, dataPosition]) htx rfl
  refine ⟨c, i, ⟨hc.1.trans hc1.1, hc.2.trans hc1.2⟩, hpos, ?_⟩
  convert d1.trans d2 using 1
  · simp [exchangesDraws]
  · simp [exchangesAccesses, show (1 + es.length = 5) = (es.length = 4) by simp; omega]

/-- A whole transfer that passes, from `IDLE` to `IDLE`. -/
theorem Drives.transferPasses (tx : Nat → Byte) (x : Transfer) (s : State) (rest : List Input) (hstd : s.params.Standard) (hb : s.busy = true)
    (hs : s.step = .idle) (ht : s.tmo = false) (hk : movesWord s.kind = true)
    (hw : commandWins s.params.arbOrder x.start = true) (hx : x.Completes s.params)
    (htx : ∀ i, 1 ≤ i → i ≤ 4 → tx i = if s.kind = .wr then Memory.read s.cb (6 - i) else 0x00#8)
    (hi : s.inputs = x.inputs ++ rest) :
    ∃ c, SameUntouched c s.ctl ∧ Drives x.inputs.length s { s with step := .idle, busy := false, idx := lastIdx s.kind, poll := 0#14, cb := receiveAll s.kind s.cb 1 x.exchanges.tail, inputs := rest, status := .ok, cbLen := if s.kind = .rd then 4#8 else s.cbLen, ctl := { c with cr := cwCfg s.params s.kind, ssr := s.params.ssDeassert, ier := ierOn s.params }, trace := .done .ok :: ((x.accesses (cwCfg s.params s.kind) (cwRun s.params s.kind) (abyte s.params s.kind s.addr) tx).reverse ++ s.trace) } := by
  obtain ⟨⟨hc3, hr3, hp⟩, h5, hcut⟩ := hx
  obtain ⟨e, es, he⟩ : ∃ e es, x.exchanges = e :: es := by
    cases h : x.exchanges with
    | nil => simp [h] at h5
    | cons e es => exact ⟨e, es, rfl⟩
  rw [he] at hp
  have hes : es.length = 4 := by simpa [he] using h5
  have hi' : s.inputs = .tick x.start :: (x.configure.map Input.tick ++ ((exchangesDraws (e :: es)).map Input.tick ++ (x.restore.map Input.tick ++ rest))) := by
    simp [hi, Transfer.inputs, Transfer.cutDraws, hcut, he]
  have d1 := Drives.start x s _ hb hs hk hw hc3 hi'
  obtain ⟨c, i, hc, hpos, d2⟩ := Drives.exchangesFrom tx e es (atAddress s _) (x.restore.map Input.tick ++ rest) hstd hb rfl hk (by omega) hp htx rfl
  rw [if_pos hes] at d2
  have d3 := (d1.trans d2).trans (Drives.restore x.restore _ rest hr3 hb rfl hk rfl)
  have hidx : i = lastIdx s.kind := by
    apply BitVec.eq_of_toNat_eq
    rw [hpos, hes]
    show dataPosition s.kind 4 = _
    rcases kind_of_movesWord hk with h | h <;> simp [h, dataPosition, lastIdx]
  subst hidx
  refine ⟨c, hc, ?_⟩
  convert d3 using 1
  · simp [Transfer.inputs, Transfer.cutDraws, hcut, he, hc3, hr3]; omega
  · simp [atAddress, he, ht, completionCode, completedLen, Transfer.accesses, Transfer.cutAccesses, hcut, hstd.ssDeassert, hstd.wordBytes, ierOff, ierOn, hstd.ierRxReady]

/-- A whole transfer that times out in `abort` mode, from `IDLE` to `IDLE`. -/
theorem Drives.transferTimesOut (tx : Nat → Byte) (x : Transfer) (c : CutExchange) (s : State) (rest : List Input)
    (hstd : s.params.Standard) (hb : s.busy = true) (hs : s.step = .idle) (hk : movesWord s.kind = true)
    (hw : commandWins s.params.arbOrder x.start = true) (hx : x.TimesOut s.params c) (hpw : paramsWf s.params)
    (hm : s.params.timeoutMode = .abort)
    (htx : ∀ i, 1 ≤ i → i ≤ 4 → tx i = if s.kind = .wr then Memory.read s.cb (6 - i) else 0x00#8)
    (hi : s.inputs = x.inputs ++ rest) :
    ∃ d i, SameUntouched d s.ctl ∧ Drives x.inputs.length s { s with step := .idle, busy := false, tmo := false, idx := i, poll := 0#14, cb := receiveAll s.kind s.cb 1 x.exchanges.tail, inputs := rest, status := .transferTimeout, ctl := { d with cr := cwCfg s.params s.kind, ssr := s.params.ssDeassert, ier := ierOn s.params }, trace := .done .transferTimeout :: ((x.accesses (cwCfg s.params s.kind) (cwRun s.params s.kind) (abyte s.params s.kind s.addr) tx).reverse ++ s.trace) } := by
  obtain ⟨⟨hc3, hr3, hp⟩, h4, hcut, hto⟩ := hx
  have hi' : s.inputs = .tick x.start :: (x.configure.map Input.tick ++ ((exchangesDraws x.exchanges).map Input.tick ++ (c.draws.map Input.tick ++ (x.restore.map Input.tick ++ rest)))) := by
    simp [hi, Transfer.inputs, Transfer.cutDraws, hcut]
  have d1 := Drives.start x s _ hb hs hk hw hc3 hi'
  cases he : x.exchanges with
  | nil =>
    simp only [he, exchangesDraws, List.map_nil, List.nil_append] at d1
    simp only [he, List.length_nil, exchangeWriteCount, ↓reduceIte] at hto
    obtain ⟨d, hd, d2⟩ := Drives.cutAddress tx c (atAddress s (c.draws.map Input.tick ++ (x.restore.map Input.tick ++ rest)))
      (x.restore.map Input.tick ++ rest) hto hm hpw hstd hb rfl hk rfl
    have d3 := (d1.trans d2).trans (Drives.restore x.restore _ rest hr3 hb rfl hk rfl)
    refine ⟨d, s.idx, hd, ?_⟩
    convert d3 using 1
    · simp [Transfer.inputs, Transfer.cutDraws, hcut, he, hc3, hr3, exchangesDraws]; omega
    · simp [atAddress, he, completionCode, completedLen, receiveAll, Transfer.accesses, Transfer.cutAccesses, exchangesAccesses, hcut, hstd.ssDeassert, ierOff, ierOn, hstd.ierRxReady]
  | cons e es =>
    rw [he] at hp d1
    have hes : es.length < 4 := by simp [he] at h4; omega
    obtain ⟨c1, i, hc1, hpos, d2⟩ := Drives.exchangesFrom tx e es (atAddress s _) (c.draws.map Input.tick ++ (x.restore.map Input.tick ++ rest)) hstd hb rfl hk (by omega) hp htx rfl
    rw [if_neg (by omega)] at d2
    simp only [he, List.length_cons, exchangeWriteCount, show es.length + 1 ≠ 0 by omega, ↓reduceIte] at hto
    rw [Nat.min_eq_left (by omega : 1 + es.length ≤ 4)] at hpos
    obtain ⟨d, hd, d3⟩ := Drives.cutData tx (abyte s.params s.kind s.addr) c (1 + es.length)
      { atAddress s (c.draws.map Input.tick ++ (x.restore.map Input.tick ++ rest)) with step := .datDtr, idx := i, poll := 0#14, ctl := c1, cb := receiveAll s.kind s.cb 1 es, trace := (exchangesAccesses (cwRun s.params s.kind) (abyte s.params s.kind s.addr) tx 0 (e :: es)).reverse ++ (atAddress s []).trace }
      (x.restore.map Input.tick ++ rest) (by omega) (by omega) hto hm hpw hstd hb rfl hk hpos
      (by
        rw [htx _ (by omega) (by omega)]
        rcases kind_of_movesWord hk with h | h <;> simp [atAddress, h, receiveAll_wr]) rfl
    have d4 := ((d1.trans d2).trans d3).trans (Drives.restore x.restore _ rest hr3 hb rfl hk rfl)
    refine ⟨d, i, ⟨hd.1.trans hc1.1, hd.2.trans hc1.2⟩, ?_⟩
    convert d4 using 1
    · simp [Transfer.inputs, Transfer.cutDraws, hcut, he, hc3, hr3]; omega
    · simp [atAddress, he, completionCode, completedLen, Transfer.accesses, Transfer.cutAccesses, hcut, hstd.ssDeassert, ierOff, ierOn, hstd.ierRxReady, Nat.add_comm 1]

/-! ### What a command starts from -/

/-- A ready block's arbitration lets the command go (R144). -/
theorem commandWins_of_ready {s : State} {u : Draw} (h : s.Ready u) : commandWins s.params.arbOrder u = true := by
  obtain ⟨-, -, h⟩ := h
  unfold commandWins
  rcases h with h | h | ⟨h, h'⟩
  · simp [h]
  · rw [h]; cases u.irq <;> rfl
  · rw [h]; cases u.irq <;> simp [h']

/-- The Command Buffer after a load (R142). -/
theorem read_loadCommand {s : State} (hm : Memory.wf s.cb) (bytes : List Byte) (k : Nat) :
    Memory.read (s.loadCommand bytes).cb k = (bytes[k]?).getD (Memory.read s.cb k) := by
  simp [State.loadCommand, Memory.read_load _ _ hm]

/-- A load keeps the canonical form. -/
theorem loadCommand_wf {s : State} (hm : Memory.wf s.cb) (bytes : List Byte) : Memory.wf (s.loadCommand bytes).cb :=
  Memory.load_wf _ _ hm _

end Sys2Proof.Machine
end

