-- ==== Sys2Proof/Tests/Slice0.lean ====
section
/-! SUPPORT. The model's own tests: well-formedness, decoding, small runs with results from spec/95_test_vectors.md
(the vector is named at each test), and a witness for the hypotheses of each statement for the provers. -/

namespace Sys2Proof.Tests

open Sys2Proof.Machine Sys2Proof.Config

/-! ### Helpers -/

/-- The environment's answers with no request: a Status word and a Data-Receive byte. -/
def answer (sr : Word) (drr : Byte) : Draw := { irq := false, pick := false, sr := sr, drr := drr }

/-- The answers of a healthy poll (the fixture's `00000004`). -/
def good : Draw := answer 4#32 0#8

/-- Status 1: transmit register full, nothing received; both polls fail. -/
def stuck : Draw := answer 1#32 0#8

/-- A request with nothing else. -/
def request (pick : Bool) : Draw := { irq := true, pick := pick, sr := 4#32, drr := 0#8 }

/-- A block in the middle of a command of kind `k`, at `l`, with one micro-step to come. -/
def standing (l : Label) (k : Kind) (i : BitVec 3) (u : Draw) : State :=
  { State.reset with step := l, busy := true, kind := k, idx := i, inputs := [.tick u] }

/-- The idle block after reset with some inputs to come. -/
def fed (is : List Input) : State := { State.reset with inputs := is }

/-- An exchange with healthy polls that receives `b`. -/
def exchange (n : Nat) (b : Byte) : Exchange :=
  { writes := List.replicate n good, txFails := [], txLast := good, rxFails := [], rxLast := good, data := answer 4#32 b }

/-- An exchange whose polls both exhaust their bounds in `legacy` mode with the bounds of `tight`. -/
def fallThrough (n : Nat) (b : Byte) : Exchange :=
  { writes := List.replicate n good, txFails := [], txLast := stuck, rxFails := [stuck], rxLast := stuck, data := answer 1#32 b }

/-- A healthy transfer whose data exchanges receive `w0`, `w1`, `w2`, `w3`. -/
def healthy (w0 w1 w2 w3 : Byte) : Transfer :=
  { start := good, configure := [good, good, good],
    exchanges := [exchange 3 0#8, exchange 2 w0, exchange 2 w1, exchange 2 w2, exchange 2 w3],
    cut := none, restore := [good, good, good] }

/-- The default parameters with the smallest poll bounds. -/
def tight : Params := { defaultParams with txPollMax := 1#14, rxPollMax := 2#14 }

/-- A transfer cut in the transmit poll of its address exchange. -/
def cutFirst : Transfer :=
  { start := good, configure := [good, good, good], exchanges := [],
    cut := some { writes := [good, good, good], txFails := [stuck], receive := none }, restore := [good, good, good] }

/-- A transfer cut in the receive poll of its last data exchange. -/
def cutLast : Transfer :=
  { start := good, configure := [good, good, good],
    exchanges := [exchange 3 0#8, exchange 2 0x44#8, exchange 2 0x33#8, exchange 2 0x22#8],
    cut := some { writes := [good, good], txFails := [], receive := some (good, [stuck, stuck]) },
    restore := [good, good, good] }

/-- The state of an outcome that answers one. -/
def reached : Host.Outcome State Fault Refusal → State
  | .next t => t
  | .fault _ => State.reset
  | .refused _ => State.reset

/-- The code of a completed command, what its buffer begins with, `cb_len`, and its register accesses in order. -/
def seen (o : Host.Outcome State Fault Refusal) (n : Nat) : Code × List Byte × BitVec 8 × List Event :=
  ((reached o).status, Memory.first (reached o).cb n, (reached o).cbLen, (reached o).trace.reverse.filter Event.isAccess)

/-- A statement about exchange number `j` for every `j` is a check of the numbered list. -/
theorem shape_of {x : Transfer} {p : Params} (h1 : x.configure.length = 3) (h2 : x.restore.length = 3)
    (h : ∀ e ∈ x.exchanges.zipIdx, e.1.Completes p (exchangeWriteCount e.2)) : x.Shape p :=
  ⟨h1, h2, fun j e he => h (e, j) (List.mem_zipIdx_iff_getElem?.2 he)⟩

/-! ### Well-formedness -/

/-- R90, R192: 129 bytes do not fit, 128 do. -/
theorem test_wellFormed_refuses_too_long :
    ¬ (Instr.rd 0xAA#8 (List.replicate 127 0#8)).WellFormed defaultParams ∧ (Instr.rd 0xAA#8 (List.replicate 126 0#8)).WellFormed defaultParams ∧
    ¬ (Instr.en (List.replicate 128 0#8)).WellFormed defaultParams ∧ ¬ (Instr.dis (List.replicate 128 0#8)).WellFormed defaultParams ∧
    ¬ (Instr.wr 1#8 1#8 2#8 3#8 4#8 (List.replicate 123 0#8)).WellFormed defaultParams := by decide +kernel

/-- R9: a buffer of eight bytes, and another opcode for `EN`: every literal is a parameter. -/
theorem test_literals_are_parameters :
    ¬ (Instr.rd 5#8 (List.replicate 7 0#8)).WellFormed { defaultParams with cbSize := 8 } ∧
    decode { defaultParams with opEn := 0x78#8 } [0x78#8] = .ok (.en []) ∧
    cwCfg { defaultParams with crCpha := 0x008#32 } .rd = 0x18E#32 := ⟨by decide, rfl, by decide⟩

/-! ### Decoding: words from R91, R94 and T11 -/

theorem test_decode_en : decode defaultParams [0b01100101#8] = .ok (.en []) := by rfl

theorem test_decode_dis : decode defaultParams [0b01100100#8] = .ok (.dis []) := by rfl

theorem test_decode_rd : decode defaultParams [0b01110010#8, 0b10000101#8] = .ok (.rd 0x85#8 []) := by rfl

theorem test_decode_wr : decode defaultParams [0b01110111#8, 0x05#8, 0x11#8, 0x22#8, 0x33#8, 0x44#8, 0x99#8] =
    .ok (.wr 0x05#8 0x11#8 0x22#8 0x33#8 0x44#8 [0x99#8]) := by rfl

/-- T11: `78`, nothing, `72`, a `w` one payload byte short, upper-case `R`. -/
theorem test_decode_rejects : decode defaultParams [0x78#8] = .error .unknownOpcode ∧ decode defaultParams [] = .error .empty ∧
    decode defaultParams [0x72#8] = .error .short ∧ decode defaultParams [0x77#8, 5#8, 0x11#8, 0x22#8, 0x33#8] = .error .short ∧
    decode defaultParams [0x52#8, 5#8] = .error .unknownOpcode := ⟨rfl, rfl, rfl, rfl, rfl⟩

/-- The opcode table's words, first byte least significant. -/
theorem test_decodeTableWord : decodeTableWord 8 0x65 = some (.en []) ∧ decodeTableWord 8 0x64 = some (.dis []) ∧
    decodeTableWord 16 0x0572 = some (.rd 5#8 []) ∧
    decodeTableWord 48 0x443322110577 = some (.wr 5#8 0x11#8 0x22#8 0x33#8 0x44#8 []) ∧
    decodeTableWord 8 0x72 = some (.rd 0#8 []) ∧ decodeTableWord 8 0x78 = none := by decide

/-! ### Commands -/

/-- T1. -/
theorem test_en : seen (exec (.en []) (fed [.tick good, .tick good])) 1 = (.ok, [0x65#8], 1#8, [.w32 .ier 0x10#32]) := by
  decide +kernel

/-- T2. -/
theorem test_dis : seen (exec (.dis []) (fed [.tick good, .tick good])) 1 = (.ok, [0x64#8], 1#8, [.w32 .ier 0#32]) := by
  decide +kernel

/-- The accesses of an exchange whose polls pass on their first read, in T3 and T4. -/
def t3Exchange (first : List Event) (b : Byte) : List Event :=
  first ++ [.r32 .sr 4#32, .r32 .sr 4#32, .r8 .drr b]

/-- T3: `WR 05, 11, 22, 33, 44`. -/
theorem test_wr : seen (exec (.wr 5#8 0x11#8 0x22#8 0x33#8 0x44#8 []) (fed (healthy 0#8 0#8 0#8 0#8).inputs)) 6 =
    (.ok, [0x77#8, 5#8, 0x11#8, 0x22#8, 0x33#8, 0x44#8], 6#8,
      [.w32 .ier 0#32, .w32 .ssr 0xFFFFFFFF#32, .w32 .cr 0x186#32] ++
      t3Exchange [.w8 .dtr 0x85#8, .w32 .ssr 0xFFFFFFFE#32, .w32 .cr 0x86#32] 0#8 ++
      t3Exchange [.w8 .dtr 0x44#8, .w32 .cr 0x86#32] 0#8 ++ t3Exchange [.w8 .dtr 0x33#8, .w32 .cr 0x86#32] 0#8 ++
      t3Exchange [.w8 .dtr 0x22#8, .w32 .cr 0x86#32] 0#8 ++ t3Exchange [.w8 .dtr 0x11#8, .w32 .cr 0x86#32] 0#8 ++
      [.w32 .cr 0x186#32, .w32 .ssr 0xFFFFFFFF#32, .w32 .ier 0x10#32]) := by decide +kernel

/-- T4, started from reset: `RD 05`. -/
theorem test_rd : seen (exec (.rd 5#8 []) (fed (healthy 0x44#8 0x33#8 0x22#8 0x11#8).inputs)) 6 =
    (.ok, [0x11#8, 0x22#8, 0x33#8, 0x44#8, 0#8, 0#8], 4#8,
      [.w32 .ier 0#32, .w32 .ssr 0xFFFFFFFF#32, .w32 .cr 0x196#32] ++
      t3Exchange [.w8 .dtr 5#8, .w32 .ssr 0xFFFFFFFE#32, .w32 .cr 0x96#32] 0#8 ++
      t3Exchange [.w8 .dtr 0#8, .w32 .cr 0x96#32] 0x44#8 ++ t3Exchange [.w8 .dtr 0#8, .w32 .cr 0x96#32] 0x33#8 ++
      t3Exchange [.w8 .dtr 0#8, .w32 .cr 0x96#32] 0x22#8 ++ t3Exchange [.w8 .dtr 0#8, .w32 .cr 0x96#32] 0x11#8 ++
      [.w32 .cr 0x196#32, .w32 .ssr 0xFFFFFFFF#32, .w32 .ier 0x10#32]) := by decide +kernel

/-- T6: the address bytes of `RD 85`, `WR 05` and `WR 7F`. -/
theorem test_address_bytes : abyte defaultParams .rd 0x85#8 = 0x85#8 ∧ abyte defaultParams .wr 0x05#8 = 0x85#8 ∧ abyte defaultParams .wr 0x7F#8 = 0xFF#8 := by
  decide

/-- T10 a and b: read 1000 of a transmit poll, passing and failing; e: bit 0 clear does not end it. -/
theorem test_poll_bound :
    (xPtx .adrPrx good { standing .adrPtx .rd 0#3 good with poll := 999#14 }).step = .adrPrx ∧
    (xPtx .adrPrx stuck { standing .adrPtx .rd 0#3 good with poll := 999#14 }).step = .rstCr ∧
    (xPtx .adrPrx stuck { standing .adrPtx .rd 0#3 good with poll := 998#14 }).step = .adrPtx ∧
    (xPtx .adrPrx (answer 0#32 0#8) (standing .adrPtx .rd 0#3 good)).step = .adrPtx := by decide

/-- T11 row 1: `RAW 78` from reset. -/
theorem test_protocolFault : seen (step (fed [.command [0x78#8]])) 2 = (.protocolFault, [0x78#8, 0#8], 1#8, []) := by
  decide +kernel

/-- T12 and T13: too long; and too long while busy, where the concurrency check comes first (R200). -/
theorem test_submit_priority :
    (submit (List.replicate 129 0#8) State.reset).trace = [.response (.raised .bufferFault)] ∧
    (submit (List.replicate 129 0#8) { State.reset with busy := true }).trace =
      [.response (.raised .concurrencyViolation)] := by decide +kernel

/-- T14: the handler drains `5A`. -/
theorem test_handler : (reached (Sys2Proof.core.run 5 (fed [.tick (request false), .tick good, .tick (answer 4#32 0x5A#8),
    .tick good, .tick good]))).trace.reverse =
    [.w32 .ier 0#32, .r8 .drr 0x5A#8, .w32 .ier 0x10#32, .irqAck] := by decide +kernel

/-- T17: `Reset` in mid-transaction, then `ReadBack`. -/
theorem test_reset_then_readBack :
    (readBack (resetBlock { standing .adrDrr .wr 0#3 good with cb := [(0, 0x77#8)], cbLen := 6#8 })).trace =
      [.readBack 0#8 []] := by decide

/-! ### Witnesses: a concrete state and operands that meet the hypotheses of each statement that has some -/

theorem witness_ResetEventAbandonsWhateverRuns :
    { standing .datPtx .wr 4#3 good with inputs := [.reset, .readBack] }.inputs = .reset :: [.readBack] := by decide

theorem witness_DecodeAcceptsExactlyTheEncodings :
    [defaultParams.opEn, defaultParams.opDis, defaultParams.opRd, defaultParams.opWr].Nodup := by decide

/-- Each clause at its boundary: 129 bytes; 128 bytes after an opcode that is none; `77` and four bytes. -/
theorem witness_DecodeRefusesByName :
    defaultParams.Standard ∧
    128 < (List.replicate 129 0#8).length ∧
    ((List.replicate 127 0#8).length < 128 ∧ (0x52#8 : Byte) ≠ 0x65#8 ∧ (0x52#8 : Byte) ≠ 0x64#8 ∧
      (0x52#8 : Byte) ≠ 0x72#8 ∧ (0x52#8 : Byte) ≠ 0x77#8) ∧
    [5#8, 0x11#8, 0x22#8, 0x33#8].length < 5 := by decide +kernel

/-- For `WordsOfEachFormatDecode` and `ConstantWordsAreAsDerived`: the defaults, and other poll bounds. -/
theorem witness_Standard : defaultParams.Standard ∧ tight.Standard := by decide

theorem witness_StepRunsTheDecodedCommand :
    (fed [.command [0x72#8, 5#8], .tick good]).inputs = .command [0x72#8, 5#8] :: [.tick good] ∧
    (fed [.command [0x72#8, 5#8], .tick good]).busy = false ∧ decode defaultParams [0x72#8, 5#8] = .ok (.rd 5#8 []) ∧
    (fed [.tick good]).params.Standard ∧ decodeTableWord 16 0x0572 = some (.rd 5#8 []) :=
  ⟨rfl, rfl, rfl, by decide, by decide⟩

theorem witness_UnscriptedStepIsAStepOfSomeInputs : State.reset.inputs = [] := rfl

/-- A state no rule speaks of, and one the rules do speak of. -/
theorem witness_MicroStepStopsExactlyWhereNoRuleSpeaks :
    ((standing .cfgSsr .en 0#3 good).inputs = .tick good :: [] ∧ (standing .cfgSsr .en 0#3 good).step.owner = .txn ∧
      ¬ (standing .cfgSsr .en 0#3 good).Moves) ∧
    ((standing .datDtr .rd 4#3 good).step.isData = true ∧ ¬ (standing .datDtr .rd 4#3 good).InData) ∧
    ((standing .ienIer .rd 0#3 good).step = .ienIer ∧ (standing .ienIer .rd 0#3 good).Moves) ∧
    (standing .datDtr .rd 3#3 good).InData := by decide

theorem witness_CommandIsItsSubmitAndSteps : (fed [.tick good, .tick good]).busy = false := rfl

/-- A `Reset` in a state outside the invariant, and a step of a state within it. -/
theorem witness_InvariantKeptByEveryStep :
    ({ standing .datDrr .en 7#3 good with inputs := [.reset] }.inputs = .reset :: [] ∧
      paramsWf { standing .datDrr .en 7#3 good with inputs := [.reset] }.params ∧
      ∃ t, step { standing .datDrr .en 7#3 good with inputs := [.reset] } = .next t) ∧
    (standing .datDrr .rd 0#3 good).Inv ∧ ∃ t, step (standing .datDrr .rd 0#3 good) = .next t :=
  ⟨⟨rfl, by decide, _, rfl⟩, by decide, _, rfl⟩

theorem witness_MachineNeverStops : (standing .datPrx .wr 2#3 good).Inv := by decide

theorem witness_NoLabelIsStuck :
    (standing .adrPtx .rd 0#3 stuck).Inv ∧ (standing .adrPtx .rd 0#3 stuck).inputs = .tick stuck :: [] ∧
    (standing .adrPtx .rd 0#3 stuck).step ≠ .idle := by decide

/-- The state at `RST_IER` of a read, with the controller's registers as the discipline has them there. -/
def closing : State :=
  { standing .rstIer .rd 0#3 good with ctl := { State.reset.ctl with cr := 0x196#32, ssr := 0xFFFFFFFF#32 } }

theorem witness_BusDisciplineKeptByEveryStep : closing.BusInv ∧ ∃ t, step closing = .next t := ⟨by decide, _, rfl⟩

theorem witness_TransferEndsWithTheBusIdle :
    (closing.params.Standard ∧ closing.BusInv ∧ closing.inputs = .tick good :: [] ∧ closing.busy = true ∧ closing.Moves) ∧
    ∃ t, step closing = .next t ∧ t.busy = false := ⟨by decide, _, rfl, rfl⟩

theorem witness_EachLabelMakesOneAccess :
    (standing .rstIer .wr 0#3 good).inputs = .tick good :: [] ∧
    ∃ t, step (standing .rstIer .wr 0#3 good) = .next t := ⟨rfl, _, rfl⟩

theorem witness_OnlySummaryAccessesAreMade :
    (fed (.command [0x72#8, 5#8] :: (healthy 1#8 2#8 3#8 4#8).inputs)).params.Standard ∧
    ∃ t, step (fed (.command [0x72#8, 5#8] :: (healthy 1#8 2#8 3#8 4#8).inputs)) = .next t := ⟨by decide, _, rfl⟩

/-- The three conditional clauses: a read's storing label (excluded from the first), a write's completing label (where
`cb_len` stays), a label that does not complete. -/
theorem witness_MicroStepFrame :
    (∃ t, step (standing .datDrr .wr 2#3 good) = .next t) ∧
    ((standing .datDrr .wr 2#3 good).step ≠ .datDrr ∨ (standing .datDrr .wr 2#3 good).kind ≠ .rd) ∧
    (∃ t, step (standing .rstIer .wr 2#3 good) = .next t) ∧
    ((standing .rstIer .wr 2#3 good).step ≠ .rstIer ∨ (standing .rstIer .wr 2#3 good).kind ≠ .rd) ∧
    (∃ t, step (standing .datDrr .rd 0#3 good) = .next t) ∧
    ((standing .datDrr .rd 0#3 good).step ≠ .rstIer ∧ (standing .datDrr .rd 0#3 good).step ≠ .ienIer) :=
  ⟨⟨_, rfl⟩, by decide, ⟨_, rfl⟩, by decide, ⟨_, rfl⟩, by decide⟩

theorem witness_HandlerStepFrame :
    (standing .irqDrr .rd 0#3 good).inputs = .tick good :: [] ∧ (standing .irqDrr .rd 0#3 good).step.owner = .irq ∧
    ∃ t, step (standing .irqDrr .rd 0#3 good) = .next t := ⟨rfl, rfl, _, rfl⟩

theorem witness_InterruptIsIgnoredOutsideIdle :
    (standing .irqEn .wr 0#3 good).step ≠ .idle ∧ good.sr = (request true).sr ∧ good.drr = (request true).drr ∧
    good ≠ request true := by decide

/-- T5's `FFFFFFFE` and the plain `00000004` agree on bits 0 and 2. -/
theorem witness_OnlyTwoStatusBitsAreTested :
    ((standing .datPtx .rd 3#3 stuck).params.Standard ∧ good.irq = (answer 0xFFFFFFFE#32 0#8).irq ∧ good.pick = (answer 0xFFFFFFFE#32 0#8).pick ∧
      good.drr = (answer 0xFFFFFFFE#32 0#8).drr ∧
      good.sr.getLsbD 0 = (answer 0xFFFFFFFE#32 0#8).sr.getLsbD 0 ∧
      good.sr.getLsbD 2 = (answer 0xFFFFFFFE#32 0#8).sr.getLsbD 2) ∧
    (∃ t, step { standing .datPtx .rd 3#3 stuck with inputs := .tick good :: [] } = .next t) ∧
    ∃ r, step { standing .datPtx .rd 3#3 stuck with inputs := .tick (answer 0xFFFFFFFE#32 0#8) :: [] } = .next r :=
  ⟨by decide, ⟨_, rfl⟩, _, rfl⟩

/-- T13, and T15 a: while busy, and while the handler runs. -/
theorem witness_SubmitWhileBusyWritesNothing :
    ({ standing .adrSsr .wr 0#3 good with inputs := [.submit [0x64#8]] }.inputs = .submit [0x64#8] :: [] ∧
      { standing .adrSsr .wr 0#3 good with inputs := [.submit [0x64#8]] }.busy = true) ∧
    ({ fed [.submit [0x64#8]] with step := .irqDrr }.inputs = .submit [0x64#8] :: [] ∧
      { fed [.submit [0x64#8]] with step := .irqDrr }.step.owner = .irq ∧
      { fed [.submit [0x64#8]] with step := .irqDrr }.busy = false ∧ decode defaultParams [0x64#8] = .ok (.dis [])) :=
  ⟨by decide, rfl, rfl, rfl, rfl⟩

theorem witness_OverlongSubmitWritesOnlyStatus :
    (fed [.submit (List.replicate 129 0#8)]).inputs = .submit (List.replicate 129 0#8) :: [] ∧
    (fed [.submit (List.replicate 129 0#8)]).busy = false ∧
    (fed [.submit (List.replicate 129 0#8)]).params.Standard ∧ 128 < (List.replicate 129 (0#8 : Byte)).length ∧
    { standing .datCr .rd 1#3 good with inputs := [.readBack] }.inputs = .readBack :: [] := by
  decide +kernel

/-- Each of the four malformed forms, the second at 128 bytes and the last one payload byte short. -/
theorem witness_MalformedSubmitIsLoadedAndFaulted :
    ((fed [.submit []]).inputs = .submit [] :: [] ∧ (fed [.submit []]).busy = false ∧
      (fed [.submit []]).params.Standard ∧ Memory.wf (fed [.submit []]).cb) ∧
    ((0x78#8 :: List.replicate 127 0#8).length ≤ 128 ∧ (0x78#8 : Byte) ≠ 0x65#8 ∧ (0x78#8 : Byte) ≠ 0x64#8 ∧
      (0x78#8 : Byte) ≠ 0x72#8 ∧ (0x78#8 : Byte) ≠ 0x77#8) ∧
    ([0x72#8].length ≤ 128 ∧ (0x77#8 :: [5#8, 0x11#8, 0x22#8, 0x33#8]).length ≤ 128 ∧
      [5#8, 0x11#8, 0x22#8, 0x33#8].length < 5) := by decide +kernel

/-- T12: 128 bytes fit. -/
theorem witness_AcceptedSubmitLoadsAndLatches :
    (fed [.submit (0x72#8 :: 0xAA#8 :: List.replicate 126 0xAA#8)]).inputs =
      .submit (0x72#8 :: 0xAA#8 :: List.replicate 126 0xAA#8) :: [] ∧
    (fed [.submit (0x72#8 :: 0xAA#8 :: List.replicate 126 0xAA#8)]).busy = false ∧
    Memory.wf (fed [.submit (0x72#8 :: 0xAA#8 :: List.replicate 126 0xAA#8)]).cb ∧
    decode defaultParams (0x72#8 :: 0xAA#8 :: List.replicate 126 0xAA#8) = .ok (.rd 0xAA#8 (List.replicate 126 0xAA#8)) :=
  ⟨rfl, rfl, show Memory.wf [] from by decide,
    by simp [decode, decodeAfterOpcode, defaultParams]⟩

theorem witness_ReadBackReturnsTheBuffer :
    { State.reset with cb := [(0, 0x65#8)], cbLen := 1#8, inputs := [.readBack] }.inputs = .readBack :: [] ∧
    { standing .adrDrr .wr 0#3 good with cbLen := 6#8, inputs := [.reset, .readBack] }.inputs =
      .reset :: .readBack :: [] := ⟨rfl, rfl⟩

theorem witness_ReadWordIsLeastSignificantByteFirst : State.reset.params.Standard := by decide

theorem witness_EqualBuffersAreEqualData :
    Memory.wf [(0, 0x65#8), (127, 1#8)] ∧ Memory.wf (Memory.write [(127, 1#8)] 0 0x65#8) ∧
    Memory.within 128 [(0, 0x65#8), (127, 1#8)] ∧ Memory.within 128 (Memory.write [(127, 1#8)] 0 0x65#8) ∧
    ∀ k, k < 128 → Memory.read [(0, 0x65#8), (127, 1#8)] k = Memory.read (Memory.write [(127, 1#8)] 0 0x65#8) k :=
  ⟨by decide, by decide, by decide, by decide, by decide +kernel⟩

/-- The idle block with a command waiting, under an arbitration order. -/
def waiting (o : ArbOrder) (u : Draw) : State :=
  { standing .idle .rd 0#3 u with params := { defaultParams with arbOrder := o } }

/-- All four clauses, each of their forms. -/
theorem witness_IdleArbitrates :
    ((waiting .any good).At .idle good [] ∧ (waiting .any good).busy = true ∧ good.irq = false) ∧
    ((waiting .cmdFirst (request false)).At .idle (request false) [] ∧
      (waiting .cmdFirst (request false)).params.arbOrder = .cmdFirst) ∧
    ((waiting .any (request true)).At .idle (request true) [] ∧ (waiting .any (request true)).params.arbOrder = .any ∧
      (request true).pick = true) ∧
    ((waiting .irqFirst (request true)).At .idle (request true) [] ∧ (request true).irq = true ∧
      (waiting .irqFirst (request true)).params.arbOrder = .irqFirst) ∧
    ((waiting .any (request false)).At .idle (request false) [] ∧ (request false).pick = false) ∧
    ((fed [.tick (request false)]).At .idle (request false) [] ∧ (fed [.tick (request false)]).busy = false) ∧
    ((fed [.tick good]).At .idle good [] ∧ (fed [.tick good]).busy = false) := by decide

theorem witness_ConfigureStepsWriteTheirConstants :
    (standing .cfgIer .rd 0#3 good).params.Standard ∧ (standing .cfgSsr .wr 0#3 good).params.Standard ∧
    (standing .cfgCr .rd 0#3 good).params.Standard ∧ (standing .cfgCr .wr 0#3 good).params.Standard ∧
    ((standing .cfgIer .rd 0#3 good).Moves ∧ (standing .cfgIer .rd 0#3 good).At .cfgIer good []) ∧
    ((standing .cfgSsr .wr 0#3 good).Moves ∧ (standing .cfgSsr .wr 0#3 good).At .cfgSsr good []) ∧
    ((standing .cfgCr .rd 0#3 good).At .cfgCr good [] ∧ (standing .cfgCr .rd 0#3 good).kind = .rd) ∧
    ((standing .cfgCr .wr 0#3 good).At .cfgCr good [] ∧ (standing .cfgCr .wr 0#3 good).kind = .wr) := by decide

theorem witness_AddressPhaseStepsAreAsOrdered :
    (standing .adrDtr .rd 0#3 good).params.Standard ∧ (standing .adrDtr .wr 0#3 good).params.Standard ∧
    (standing .adrSsr .wr 0#3 good).params.Standard ∧ (standing .adrDrr .rd 0#3 good).params.Standard ∧
    (standing .adrDrr .wr 0#3 good).params.Standard ∧
    ((standing .adrDtr .rd 0#3 good).At .adrDtr good [] ∧ (standing .adrDtr .rd 0#3 good).kind = .rd) ∧
    ((standing .adrDtr .wr 0#3 good).At .adrDtr good [] ∧ (standing .adrDtr .wr 0#3 good).kind = .wr) ∧
    ((standing .adrSsr .wr 0#3 good).At .adrSsr good [] ∧ (standing .adrSsr .wr 0#3 good).Moves) ∧
    ((standing .adrDrr .rd 0#3 good).At .adrDrr good [] ∧ (standing .adrDrr .rd 0#3 good).kind = .rd) ∧
    ((standing .adrDrr .wr 0#3 good).At .adrDrr good [] ∧ (standing .adrDrr .wr 0#3 good).kind = .wr) := by decide

/-- Both pulses, each for a read and for a write. -/
theorem witness_PulseClearsInhibitAndPollCount :
    (standing .adrCr .rd 0#3 good).params.Standard ∧ (standing .datCr .wr 2#3 good).params.Standard ∧
    ((standing .adrCr .rd 0#3 good).Moves ∧ (standing .adrCr .rd 0#3 good).At .adrCr good [] ∧
      ((standing .adrCr .rd 0#3 good).kind = .rd → (0x96#32 : Word) = 0x96#32) ∧
      ((standing .adrCr .rd 0#3 good).kind = .wr → (0x96#32 : Word) = 0x86#32)) ∧
    ((standing .datCr .wr 2#3 good).InData ∧ (standing .datCr .wr 2#3 good).At .datCr good [] ∧
      ((standing .datCr .wr 2#3 good).kind = .rd → (0x86#32 : Word) = 0x96#32) ∧
      ((standing .datCr .wr 2#3 good).kind = .wr → (0x86#32 : Word) = 0x86#32)) := by decide

/-- A block at a poll label with the count `n`, in a timeout mode. -/
def polling (l : Label) (k : Kind) (i : BitVec 3) (n : BitVec 14) (m : TimeoutMode) (u : Draw) : State :=
  { standing l k i u with poll := n, params := { defaultParams with timeoutMode := m } }

/-- Both labels; a passing read, a failing one below the bound, and the failing read number 1000 in both modes. -/
theorem witness_TransmitPollIteration :
    (polling .adrPtx .rd 0#3 999#14 .abort good).params.Standard ∧
    (polling .datPtx .rd 0#3 999#14 .legacy stuck).params.Standard ∧
    ((polling .adrPtx .rd 0#3 999#14 .abort good).At .adrPtx good [] ∧
      (polling .adrPtx .rd 0#3 999#14 .abort good).Moves ∧ good.sr.getLsbD 2 = true) ∧
    ((polling .datPtx .wr 5#3 998#14 .abort stuck).At .datPtx stuck [] ∧
      (polling .datPtx .wr 5#3 998#14 .abort stuck).InData ∧ stuck.sr.getLsbD 2 = false ∧
      (998#14 + 1#14 : BitVec 14) ≠ defaultParams.txPollMax) ∧
    ((polling .adrPtx .wr 0#3 999#14 .abort stuck).At .adrPtx stuck [] ∧
      (polling .adrPtx .wr 0#3 999#14 .abort stuck).Moves ∧
      (999#14 + 1#14 : BitVec 14) = (polling .adrPtx .wr 0#3 999#14 .abort stuck).params.txPollMax ∧
      (polling .adrPtx .wr 0#3 999#14 .abort stuck).params.timeoutMode = .abort) ∧
    ((polling .datPtx .rd 0#3 999#14 .legacy stuck).At .datPtx stuck [] ∧
      (polling .datPtx .rd 0#3 999#14 .legacy stuck).InData ∧
      (polling .datPtx .rd 0#3 999#14 .legacy stuck).params.timeoutMode = .legacy) := by decide

/-- As above for the receive poll and its bound 10000. -/
theorem witness_ReceivePollIteration :
    (polling .adrPrx .rd 0#3 9999#14 .abort good).params.Standard ∧
    (polling .datPrx .rd 0#3 9999#14 .legacy stuck).params.Standard ∧
    ((polling .adrPrx .rd 0#3 9999#14 .abort good).At .adrPrx good [] ∧
      (polling .adrPrx .rd 0#3 9999#14 .abort good).Moves ∧ good.sr.getLsbD 0 = false) ∧
    ((polling .datPrx .wr 5#3 9998#14 .abort stuck).At .datPrx stuck [] ∧
      (polling .datPrx .wr 5#3 9998#14 .abort stuck).InData ∧ stuck.sr.getLsbD 0 = true ∧
      (9998#14 + 1#14 : BitVec 14) ≠ defaultParams.rxPollMax) ∧
    ((polling .adrPrx .wr 0#3 9999#14 .abort stuck).At .adrPrx stuck [] ∧
      (polling .adrPrx .wr 0#3 9999#14 .abort stuck).Moves ∧
      (9999#14 + 1#14 : BitVec 14) = (polling .adrPrx .wr 0#3 9999#14 .abort stuck).params.rxPollMax ∧
      (polling .adrPrx .wr 0#3 9999#14 .abort stuck).params.timeoutMode = .abort) ∧
    ((polling .datPrx .rd 0#3 9999#14 .legacy stuck).At .datPrx stuck [] ∧
      (polling .datPrx .rd 0#3 9999#14 .legacy stuck).InData ∧
      (polling .datPrx .rd 0#3 9999#14 .legacy stuck).params.timeoutMode = .legacy) := by decide

/-- The three clauses at a bound of 2 in all four loops: one failing read, one failing and a passing one, two failing. -/
theorem witness_PollLoopReadCount :
    ∀ c ∈ [(Label.adrPtx, Kind.rd), (.datPtx, .wr), (.adrPrx, .wr), (.datPrx, .rd)],
      let s := { standing c.1 c.2 3#3 stuck with params := { tight with txPollMax := 2#14 } }
      s.Moves ∧ s.InData ∧ s.params.Standard ∧ s.poll = 0#14 ∧ (∀ u ∈ [stuck, stuck], u.sr.getLsbD 2 ≠ true ∧ u.sr.getLsbD 0 ≠ false) ∧
      [stuck].length < s.params.txPollMax.toNat ∧ [stuck].length < s.params.rxPollMax.toNat ∧
      good.sr.getLsbD 2 = true ∧ good.sr.getLsbD 0 = false ∧
      0 < [stuck, stuck].length ∧ [stuck, stuck].length = s.params.txPollMax.toNat ∧
      [stuck, stuck].length = s.params.rxPollMax.toNat ∧
      { s with inputs := [.tick stuck, .tick stuck] }.inputs = [stuck, stuck].map Input.tick ++ [] ∧
      { s with inputs := [.tick stuck, .tick good] }.inputs = [stuck].map Input.tick ++ .tick good :: [] := by decide

/-- Reads and writes at the first and the last index. -/
theorem witness_DataByteIsPushed :
    ∀ c ∈ [(Kind.rd, 3#3), (Kind.rd, 0#3), (Kind.wr, 5#3), (Kind.wr, 2#3)],
      let s := { standing .datDtr c.1 c.2 good with cb := [(2, 0x11#8), (5, 0x44#8)] }
      s.At .datDtr good [] ∧ s.InData ∧ s.params.Standard ∧ (s.kind = .rd → dataByte s = 0x00#8) ∧
      (s.kind = .wr → dataByte s = Memory.read s.cb s.idx.toNat) := by decide

/-- Reads and writes at the first and the last index. -/
theorem witness_DataByteIsReceived :
    ∀ c ∈ [(Kind.rd, 3#3), (Kind.rd, 0#3), (Kind.wr, 5#3), (Kind.wr, 2#3)],
      let s := { standing .datDrr c.1 c.2 (answer 4#32 0x44#8) with cb := [(0, 0x72#8), (1, 5#8)] }
      s.At .datDrr (answer 4#32 0x44#8) [] ∧ s.InData ∧ Memory.wf s.cb := by decide

theorem witness_RestoreStepsAndCompletion :
    (standing .rstCr .rd 0#3 good).params.Standard ∧ (standing .rstCr .wr 2#3 good).params.Standard ∧
    (standing .rstSsr .wr 2#3 good).params.Standard ∧ (standing .rstIer .rd 0#3 good).params.Standard ∧
    { standing .rstIer .rd 2#3 good with tmo := true }.params.Standard ∧
    (standing .rstIer .wr 2#3 good).params.Standard ∧
    ((standing .rstCr .rd 0#3 good).At .rstCr good [] ∧ (standing .rstCr .rd 0#3 good).kind = .rd) ∧
    ((standing .rstCr .wr 2#3 good).At .rstCr good [] ∧ (standing .rstCr .wr 2#3 good).kind = .wr) ∧
    ((standing .rstSsr .wr 2#3 good).At .rstSsr good [] ∧ (standing .rstSsr .wr 2#3 good).Moves) ∧
    ({ standing .rstIer .rd 2#3 good with tmo := true }.At .rstIer good [] ∧
      { standing .rstIer .rd 2#3 good with tmo := true }.Moves ∧
      { standing .rstIer .rd 2#3 good with tmo := true }.tmo = true) ∧
    ((standing .rstIer .rd 0#3 good).At .rstIer good [] ∧ (standing .rstIer .rd 0#3 good).kind = .rd ∧
      (standing .rstIer .rd 0#3 good).tmo = false) ∧
    ((standing .rstIer .wr 2#3 good).At .rstIer good [] ∧ (standing .rstIer .wr 2#3 good).kind = .wr ∧
      (standing .rstIer .wr 2#3 good).tmo = false) := by decide

theorem witness_InterruptEnableStep :
    (standing .ienIer .en 0#3 good).params.Standard ∧ (standing .ienIer .dis 0#3 good).params.Standard ∧
    ((standing .ienIer .en 0#3 good).At .ienIer good [] ∧ (standing .ienIer .en 0#3 good).kind = .en) ∧
    ((standing .ienIer .dis 0#3 good).At .ienIer good [] ∧ (standing .ienIer .dis 0#3 good).kind = .dis) := by decide

/-- With nothing waiting, and with a command waiting under `irq_first`. -/
theorem witness_HandlerRunDrainsOneByte :
    (∀ s ∈ [fed [], waiting .irqFirst good, waiting .any good],
      let t := { s with inputs := [Input.tick (request false), .tick good, .tick good, .tick good, .tick good] }
      t.params.Standard ∧ t.step = .idle ∧
      t.inputs = [Input.tick (request false), .tick good, .tick good, .tick good, .tick good] ++ [] ∧
      (request false).irq = true ∧
      (t.busy = true →
        t.params.arbOrder = .irqFirst ∨ (t.params.arbOrder = .any ∧ (request false).pick = false))) := by decide

theorem witness_EnableInterruptCompletes :
    (fed [.tick good, .tick good]).params.Standard ∧
    (Instr.en [0x99#8]).WellFormed defaultParams ∧ Memory.wf (fed [.tick good, .tick good]).cb ∧
    (fed [.tick good, .tick good]).Ready good ∧
    (fed [.tick good, .tick good]).inputs = .tick good :: .tick good :: [] := by decide

theorem witness_DisableInterruptCompletes :
    (fed [.tick (request true), .tick good]).params.Standard ∧
    (Instr.dis []).WellFormed defaultParams ∧ Memory.wf (fed [.tick (request true), .tick good]).cb ∧
    (fed [.tick (request true), .tick good]).Ready (request true) ∧
    (fed [.tick (request true), .tick good]).inputs = .tick (request true) :: .tick good :: [] := by decide

theorem witness_ReadWordCompletes :
    (fed (healthy 1#8 2#8 3#8 4#8).inputs).params.Standard ∧
    (Instr.rd 0x85#8 []).WellFormed defaultParams ∧ Memory.wf (fed (healthy 1#8 2#8 3#8 4#8).inputs).cb ∧
    (fed (healthy 1#8 2#8 3#8 4#8).inputs).Ready (healthy 1#8 2#8 3#8 4#8).start ∧
    (healthy 1#8 2#8 3#8 4#8).Completes (fed (healthy 1#8 2#8 3#8 4#8).inputs).params ∧
    (fed (healthy 1#8 2#8 3#8 4#8).inputs).inputs = (healthy 1#8 2#8 3#8 4#8).inputs ++ [] :=
  ⟨by decide, by decide, by decide, by decide, ⟨shape_of rfl rfl (by decide), rfl, rfl⟩, by decide⟩

/-- The `legacy` form: an exchange whose polls pass by exhaustion. -/
theorem witness_ReadWordCompletes_legacy :
    (fallThrough 2 9#8).Completes { tight with timeoutMode := .legacy } 2 := by decide

theorem witness_WriteWordCompletes :
    (fed (healthy 0#8 0#8 0#8 0#8).inputs).params.Standard ∧
    (Instr.wr 0x7F#8 1#8 2#8 3#8 4#8 []).WellFormed defaultParams ∧ Memory.wf (fed (healthy 0#8 0#8 0#8 0#8).inputs).cb ∧
    (fed (healthy 0#8 0#8 0#8 0#8).inputs).Ready (healthy 0#8 0#8 0#8 0#8).start ∧
    (healthy 0#8 0#8 0#8 0#8).Completes (fed (healthy 0#8 0#8 0#8 0#8).inputs).params ∧
    (fed (healthy 0#8 0#8 0#8 0#8).inputs).inputs = (healthy 0#8 0#8 0#8 0#8).inputs ++ [] :=
  ⟨by decide, by decide, by decide, by decide, ⟨shape_of rfl rfl (by decide), rfl, rfl⟩, by decide⟩

/-- A block with the smallest poll bounds and some inputs to come. -/
def strict (is : List Input) : State := { fed is with params := tight }

/-- Cut in the first exchange's transmit poll, and in the last exchange's receive poll. -/
theorem witness_ReadWordTimesOut :
    (strict cutFirst.inputs).params.Standard ∧ (strict cutLast.inputs).params.Standard ∧
    (Instr.rd 5#8 []).WellFormed tight ∧ Memory.wf (strict cutFirst.inputs).cb ∧ paramsWf tight ∧ tight.timeoutMode = .abort ∧
    ((strict cutFirst.inputs).Ready cutFirst.start ∧ (strict cutFirst.inputs).inputs = cutFirst.inputs ++ [] ∧
      cutFirst.TimesOut tight { writes := [good, good, good], txFails := [stuck], receive := none }) ∧
    ((strict cutLast.inputs).Ready cutLast.start ∧ (strict cutLast.inputs).inputs = cutLast.inputs ++ [] ∧
      cutLast.TimesOut tight { writes := [good, good], txFails := [], receive := some (good, [stuck, stuck]) }) :=
  ⟨by decide, by decide, by decide, by decide, by decide, by decide,
    ⟨by decide, by decide, shape_of rfl rfl (by decide), by decide, by decide, by decide⟩,
    ⟨by decide, by decide, shape_of rfl rfl (by decide), by decide, by decide, by decide⟩⟩

theorem witness_WriteWordTimesOut :
    (strict cutLast.inputs).params.Standard ∧
    (Instr.wr 5#8 1#8 2#8 3#8 4#8 []).WellFormed tight ∧ Memory.wf (strict cutLast.inputs).cb ∧ paramsWf tight ∧
    tight.timeoutMode = .abort ∧ (strict cutLast.inputs).Ready cutLast.start ∧
    (strict cutLast.inputs).inputs = cutLast.inputs ++ [] ∧
    cutLast.TimesOut tight { writes := [good, good], txFails := [], receive := some (good, [stuck, stuck]) } :=
  ⟨by decide, by decide, by decide, by decide, by decide, by decide, by decide,
    shape_of rfl rfl (by decide), by decide, by decide, by decide⟩

/-- T3 then T4 (program P1). -/
def beforeWrite : State := fed ((healthy 0#8 0#8 0#8 0#8).inputs ++ (healthy 0x44#8 0x33#8 0x22#8 0x11#8).inputs)

/-- The state after the write of program P1. -/
def afterWrite : State := reached (exec (.wr 5#8 0x11#8 0x22#8 0x33#8 0x44#8 []) beforeWrite)

theorem witness_WriteThenReadIsNetNeutral :
    beforeWrite.params.Standard ∧
    (Instr.wr 5#8 0x11#8 0x22#8 0x33#8 0x44#8 []).WellFormed defaultParams ∧ (Instr.rd 5#8 []).WellFormed defaultParams ∧
    Memory.wf beforeWrite.cb ∧ beforeWrite.Ready (healthy 0#8 0#8 0#8 0#8).start ∧
    (healthy 0#8 0#8 0#8 0#8).Completes beforeWrite.params ∧
    beforeWrite.inputs = (healthy 0#8 0#8 0#8 0#8).inputs ++ (healthy 0x44#8 0x33#8 0x22#8 0x11#8).inputs ∧
    exec (.wr 5#8 0x11#8 0x22#8 0x33#8 0x44#8 []) beforeWrite = .next afterWrite ∧
    afterWrite.trace = afterWrite.trace ++ beforeWrite.trace ∧
    afterWrite.Ready (healthy 0x44#8 0x33#8 0x22#8 0x11#8).start ∧
    afterWrite.params = defaultParams ∧
    (∃ r, exec (.rd 5#8 []) afterWrite = .next r) ∧
    ((healthy 0x44#8 0x33#8 0x22#8 0x11#8).exchanges.map fun e => e.data.drr).tail =
      (wireBytes afterWrite.trace.reverse).tail :=
  ⟨by decide, by decide, by decide, by decide, by decide, ⟨shape_of rfl rfl (by decide), rfl, rfl⟩, rfl, rfl, by decide +kernel, by decide +kernel,
    by decide +kernel, ⟨_, rfl⟩, by decide +kernel⟩

theorem witness_LegacyModeNeverReportsATimeout :
    (polling .datPrx .rd 0#3 9999#14 .legacy stuck).Inv ∧
    (polling .datPrx .rd 0#3 9999#14 .legacy stuck).params.timeoutMode = .legacy ∧
    ∃ t, step (polling .datPrx .rd 0#3 9999#14 .legacy stuck) = .next t := ⟨by decide, by decide, _, rfl⟩

/-- Under `cmd_first`, with a first step that raises no request, and under `any` with a request and the choice for the
command. -/
theorem witness_StartedCommandTerminates :
    (Instr.rd 5#8 []).WellFormed defaultParams ∧
    (({ State.reset with params := { defaultParams with arbOrder := .cmdFirst } } : State).Inv ∧
      ({ State.reset with params := { defaultParams with arbOrder := .cmdFirst } } : State).params.arbOrder = .cmdFirst) ∧
    (∀ u ∈ [good, request true], (fed [.tick u]).Inv ∧ (fed [.tick u]).busy = false ∧ (fed [.tick u]).step = .idle ∧
      (fed [.tick u]).inputs = .tick u :: [] ∧ (fed [.tick u]).Ready u) ∧
    defaultParams.wordBytes = 4 ∧ defaultParams.txPollMax = 1000#14 ∧ defaultParams.rxPollMax = 10000#14 := by decide

theorem witness_CommandTurnedAwayWritesAtMostStatus :
    (standing .adrSsr .wr 0#3 good).busy = true ∧ State.reset.busy = false ∧
    ¬ (Instr.rd 0#8 (List.replicate 127 0#8)).WellFormed State.reset.params := by decide +kernel

theorem witness_InterruptCommandFrame :
    Memory.wf (fed [.tick good, .tick good]).cb ∧ Input.reset ∉ (fed [.tick good, .tick good]).inputs ∧
    (∃ t, exec (.en []) (fed [.tick good, .tick good]) = .next t) ∧
    ∃ t, exec (.dis []) (fed [.tick good, .tick good]) = .next t := ⟨by decide, by decide, ⟨_, rfl⟩, _, rfl⟩

theorem witness_WriteWordFrame :
    (strict cutLast.inputs).params.Standard ∧
    (Instr.wr 5#8 1#8 2#8 3#8 4#8 []).WellFormed tight ∧ Memory.wf (strict cutLast.inputs).cb ∧
    (strict cutLast.inputs).busy = false ∧ Input.reset ∉ (strict cutLast.inputs).inputs ∧
    ∃ t, exec (.wr 5#8 1#8 2#8 3#8 4#8 []) (strict cutLast.inputs) = .next t :=
  ⟨by decide, by decide, by decide, rfl, by decide, _, rfl⟩

theorem witness_ReadWordFrame :
    (strict cutLast.inputs).params.Standard ∧
    (Instr.rd 5#8 []).WellFormed tight ∧ Memory.wf (strict cutLast.inputs).cb ∧
    (strict cutLast.inputs).busy = false ∧ Input.reset ∉ (strict cutLast.inputs).inputs ∧
    ∃ t, exec (.rd 5#8 []) (strict cutLast.inputs) = .next t :=
  ⟨by decide, by decide, by decide, rfl, by decide, _, rfl⟩

end Sys2Proof.Tests
end

section

namespace Sys2Proof.Machine

/-- Settles O6: R10's constant words and R101's address byte, each from the law of that word under R9's literals;
`ierOff` is a literal of its own. -/
theorem constantWordsAreAsDerived : Obligations.ConstantWordsAreAsDerived := by
  intro p h
  have ierOff_eq : ierOff = 0x00000000#32 := rfl
  exact ⟨cwCfg_wr h, cwCfg_rd h, cwRun_wr h, cwRun_rd h, ierOff_eq, ierOn_eq h, fun a => ⟨abyte_rd p a, abyte_wr h a⟩⟩

end Sys2Proof.Machine

end

section

/-! What a step of the machine keeps, from what its parts keep: the host events, one label's step, and the model's own
fields `inputs` and `drawn`. -/

namespace Sys2Proof.Machine

/-- A predicate that every part of a step of R15 keeps: the three host events, the step of a label the rules speak of,
and the taking of an input or of a free draw. -/
structure StepClosed (P : State → Prop) : Prop where
  submit : ∀ bs s, P s → P (submit bs s)
  readBack : ∀ s, P s → P (readBack s)
  reset : ∀ s, P s → P (resetBlock s)
  label : ∀ u s, s.hasRule = true → P s → P (labelStep u s)
  inputs : ∀ s is, P s → P { s with inputs := is }
  drawn : ∀ s n, P s → P { s with drawn := n }

namespace StepClosed

variable {P : State → Prop} (hP : StepClosed P)
include hP

theorem microStep {u : Draw} {s t : State} (hs : P s) (h : microStep u s = .next t) : P t := by
  obtain ⟨hrule, rfl⟩ := microStep_next h
  exact hP.label u s hrule hs

/-- One step of R15 keeps it. -/
theorem advance {s t : State} (hs : P s) (h : advance s = .next t) : P t := by
  have hs' : ∀ rest, P { s with inputs := rest } := fun rest => hP.inputs s rest hs
  rcases advance_cases s with ⟨bs, rest, -, e⟩ | ⟨rest, -, e⟩ | ⟨rest, -, e⟩ | ⟨u, rest, -, e⟩ | ⟨-, e⟩ <;> rw [e] at h
  · cases h; exact hP.submit bs _ (hs' rest)
  · cases h; exact hP.readBack _ (hs' rest)
  · cases h; exact hP.reset _ (hs' rest)
  · exact hP.microStep (hs' rest) h
  · exact hP.microStep (hP.drawn s _ hs) h

/-- The run of a program line keeps it (R104). -/
theorem runCommand {bs : List Byte} {s t : State} (hs : P s) (h : runCommand bs s = .next t) : P t := by
  have hsub := hP.submit bs s hs
  unfold Machine.runCommand at h
  split at h <;> cases h
  · exact hsub
  · exact drive_induction (fun _ _ _ ha hp => hP.advance hp ha) _ _ hsub

/-- Every step of the machine keeps it, a whole command's among them. -/
theorem step {s t : State} (hs : P s) (h : step s = .next t) : P t := by
  unfold Machine.step at h
  split at h
  · rename_i bs r hf
    obtain ⟨rest, -, -, rfl⟩ := fetch_eq_some hf
    have hr : P { s with inputs := rest } := hP.inputs s rest hs
    split at h
    · rw [exec_eq_runCommand] at h
      exact hP.runCommand hr h
    · cases h; exact hP.submit bs _ hr
  · exact hP.advance hs h

end StepClosed

/-! ### The fields the shared operations write -/

/-- R123, R124, R126, R127: a poll iteration writes `step`, `poll` and `tmo` only. -/
theorem pollOnce_frame (passes : Bool) (bound : BitVec 14) (l : Label) (s : State) :
    pollOnce passes bound l s =
      { s with step := (pollOnce passes bound l s).step, poll := (pollOnce passes bound l s).poll,
               tmo := (pollOnce passes bound l s).tmo } := by
  rcases pollOnce_cases passes bound l s with ⟨-, e⟩ | ⟨-, -, -, e⟩ | ⟨-, -, -, e⟩ | ⟨-, -, e⟩ <;> rw [e]

/-- R144: the arbitration writes `step` only. -/
theorem idleStep_frame (u : Draw) (s : State) : idleStep u s = { s with step := (idleStep u s).step } := by
  rcases idleStep_cases u s with ⟨-, -, e⟩ | ⟨-, e⟩ | ⟨-, -, e⟩ <;> rw [e]

/-- R157: the index progression writes `step` and `idx` only. -/
theorem nextDataByte_frame (s : State) :
    nextDataByte s = { s with step := (nextDataByte s).step, idx := (nextDataByte s).idx } := by
  unfold nextDataByte
  split <;> rfl

/-- R155, R156: what a data exchange's last step writes: the read's record, a read's stored byte, and the position. -/
theorem datDrr_frame (u : Draw) (s : State) :
    datDrr u s = { s.memRead8 .drr u.drr with
      cb := if s.kind = .rd then Memory.write s.cb s.idx.toNat u.drr else s.cb,
      step := (datDrr u s).step, idx := (datDrr u s).idx } := by
  rw [datDrr, storeReceived_eq, nextDataByte_frame]
  rfl

/-! ### The events of a step -/

/-- `t` comes from `s` with the events `es`, newest first, the same parameters (R9), and `GIER` and `ISR` as they were
(R199). -/
structure Emits (es : List Event) (s t : State) : Prop where
  trace : t.trace = es ++ s.trace
  params : t.params = s.params
  untouched : SameUntouched t.ctl s.ctl

/-- The events one step of each label adds to the trace, newest first (R167). -/
def labelEvents (u : Draw) (s : State) : List Event :=
  match s.step with
  | .idle => []
  | .irqAck => [.irqAck]
  | .ienIer => [.done .ok, .w32 .ier (ienWord s.params s.kind)]
  | .cfgIer | .irqDis => [.w32 .ier ierOff]
  | .irqEn => [.w32 .ier (ierOn s.params)]
  | .cfgSsr | .rstSsr => [.w32 .ssr s.params.ssDeassert]
  | .adrSsr => [.w32 .ssr s.params.ssAssert]
  | .cfgCr | .rstCr => [.w32 .cr (cwCfg s.params s.kind)]
  | .adrCr | .datCr => [.w32 .cr (cwRun s.params s.kind)]
  | .adrDtr => [.w8 .dtr (abyte s.params s.kind s.addr)]
  | .datDtr => [.w8 .dtr (dataByte s)]
  | .adrPtx | .adrPrx | .datPtx | .datPrx => [.r32 .sr u.sr]
  | .adrDrr | .datDrr | .irqDrr => [.r8 .drr u.drr]
  | .rstIer => [.done (completionCode s.tmo), .w32 .ier (ierOn s.params)]

theorem Emits.refl (s : State) : Emits [] s s := ⟨rfl, rfl, rfl, rfl⟩

theorem Emits.trans {es fs : List Event} {s t r : State} (h : Emits es s t) (k : Emits fs t r) :
    Emits (fs ++ es) s r :=
  ⟨by rw [k.trace, h.trace, List.append_assoc], k.params.trans h.params,
    k.untouched.1.trans h.untouched.1, k.untouched.2.trans h.untouched.2⟩

theorem pollStep_emits (passes : Bool) (bound : BitVec 14) (l : Label) (v : Word) (s : State) :
    Emits [.r32 .sr v] s (pollOnce passes bound l (s.memRead32 .sr v)) := by
  rw [pollOnce_frame]
  exact ⟨rfl, rfl, rfl, rfl⟩

/-- A label's step adds the label's events and touches neither `GIER` nor `ISR`. -/
theorem labelStep_emits (u : Draw) (s : State) : Emits (labelEvents u s) s (labelStep u s) := by
  unfold labelEvents labelStep
  cases s.step with
  | idle => dsimp only; rw [idleStep_frame]; exact ⟨rfl, rfl, rfl, rfl⟩
  | adrPtx | adrPrx | datPtx | datPrx => exact pollStep_emits _ _ _ _ _
  | datDrr => dsimp only; rw [datDrr_frame]; exact ⟨rfl, rfl, rfl, rfl⟩
  | _ => exact ⟨rfl, rfl, rfl, rfl⟩

/-- R141: a `Submit` adds its response, and no access. -/
theorem submit_emits (bs : List Byte) (s : State) : ∃ r, Emits [.response r] s (submit bs s) := by
  rcases submit_cases bs s with ⟨-, e⟩ | ⟨-, -, e⟩ | ⟨-, -, e⟩ | ⟨-, i, -, e⟩ <;>
    exact ⟨_, by rw [e]; exact ⟨rfl, rfl, rfl, rfl⟩⟩

theorem readBack_emits (s : State) :
    Emits [.readBack s.cbLen (Memory.first s.cb s.cbLen.toNat)] s (readBack s) := ⟨rfl, rfl, rfl, rfl⟩

/-- R220: a `Reset` adds no event. -/
theorem resetBlock_emits (s : State) : Emits [] s (resetBlock s) := ⟨rfl, rfl, rfl, rfl⟩

/-! ### One access for each label (R22) -/

theorem labelEvents_accessCount (u : Draw) (s : State) :
    ((labelEvents u s).filter Event.isAccess).length = if s.step = .idle ∨ s.step = .irqAck then 0 else 1 := by
  unfold labelEvents
  cases s.step <;> rfl

theorem Label.owner_eq_none_iff (l : Label) : l.owner = .none ↔ l = .idle := by
  cases l <;> simp [Label.owner]

theorem Label.owner_eq_irq_iff (l : Label) :
    l.owner = .irq ↔ l = .irqDis ∨ l = .irqDrr ∨ l = .irqEn ∨ l = .irqAck := by
  cases l <;> simp [Label.owner]

theorem Label.owner_eq_txn_iff (l : Label) :
    l.owner = .txn ↔ l ≠ .idle ∧ l ≠ .irqDis ∧ l ≠ .irqDrr ∧ l ≠ .irqEn ∧ l ≠ .irqAck := by
  cases l <;> simp [Label.owner]

/-- Settles O18: a micro-step adds its label's events, and these hold the one access. -/
theorem eachLabelMakesOneAccess : Obligations.EachLabelMakesOneAccess := by
  refine ⟨fun s t u rest hi h => ?_, fun l => ⟨l.owner_eq_none_iff, l.owner_eq_irq_iff, l.owner_eq_txn_iff⟩⟩
  rw [step_tick hi] at h
  obtain ⟨-, rfl⟩ := microStep_next h
  exact ⟨_, (labelStep_emits u _).trace, labelEvents_accessCount u _⟩

end Sys2Proof.Machine

end

section

/-! The accesses of a step are those of the access summary (R48). -/

namespace Sys2Proof.Machine

/-- R34: a completion is no access. -/
@[simp] theorem legalAccess_done (c : Code) : legalAccess (.done c) = true := rfl

section

variable {p : Params} (hstd : p.Standard)
include hstd

/-- R40: the two Control words of the configure and restore steps. -/
theorem legalAccess_cwCfg (k : Kind) : legalAccess (.w32 .cr (cwCfg p k)) = true := by
  cases k with
  | rd => simp [legalAccess, cwCfg_rd hstd]
  | en | dis | wr => exact (cwCfg_wr hstd ▸ by decide : legalAccess (.w32 .cr (cwCfg p .wr)) = true)

/-- R40: the two Control words of the pulse. -/
theorem legalAccess_cwRun (k : Kind) : legalAccess (.w32 .cr (cwRun p k)) = true := by
  cases k with
  | rd => simp [legalAccess, cwRun_rd hstd]
  | en | dis | wr => exact (cwRun_wr hstd ▸ by decide : legalAccess (.w32 .cr (cwRun p .wr)) = true)

/-- R46: the word that enables the receive interrupt. -/
theorem legalAccess_ierOn : legalAccess (.w32 .ier (ierOn p)) = true := by simp [legalAccess, ierOn_eq hstd]

/-- R46: both words `IEN_IER` writes. -/
theorem legalAccess_ienWord (k : Kind) : legalAccess (.w32 .ier (ienWord p k)) = true := by
  unfold ienWord
  split
  · exact legalAccess_ierOn hstd
  · rfl

end

/-- Every event of a label is of the access summary. -/
theorem labelEvents_legal {s : State} (hstd : s.params.Standard) (u : Draw) :
    ∀ e ∈ labelEvents u s, legalAccess e = true := by
  unfold labelEvents
  cases s.step with
  | cfgCr | rstCr => simpa using legalAccess_cwCfg hstd s.kind
  | adrCr | datCr => simpa using legalAccess_cwRun hstd s.kind
  | ienIer => simpa using legalAccess_ienWord hstd s.kind
  | rstIer | irqEn => simpa using legalAccess_ierOn hstd
  | adrSsr => simp [legalAccess, hstd.ssAssert]
  | cfgSsr | rstSsr => simp [legalAccess, hstd.ssDeassert]
  | cfgIer | irqDis => simp [legalAccess, ierOff]
  | idle | irqAck | adrDtr | datDtr | adrPtx | adrPrx | datPtx | datPrx | adrDrr | datDrr | irqDrr =>
    simp [legalAccess]

/-- `t` comes from `s` with events of the access summary only. -/
def EmitsLegal (s t : State) : Prop := ∃ es, Emits es s t ∧ ∀ e ∈ es, legalAccess e = true

theorem EmitsLegal.trans_emits {es : List Event} {s t r : State} (h : EmitsLegal s t) (k : Emits es t r)
    (hes : ∀ e ∈ es, legalAccess e = true) : EmitsLegal s r := by
  obtain ⟨fs, hfs, hlegal⟩ := h
  exact ⟨es ++ fs, hfs.trans k, fun e he => (List.mem_append.1 he).elim (hes e) (hlegal e)⟩

/-- Every part of a step adds legal events to those since `s`, where `s` has this hardware's literals. -/
theorem emitsLegal_stepClosed {s : State} (hstd : s.params.Standard) : StepClosed (EmitsLegal s) where
  submit bs t h := by
    obtain ⟨r, hr⟩ := submit_emits bs t
    exact h.trans_emits hr (by simp [legalAccess])
  readBack t h := h.trans_emits (readBack_emits t) (by simp [legalAccess])
  reset t h := h.trans_emits (resetBlock_emits t) (by simp)
  label u t _ h := by
    have hstd' : t.params.Standard := by
      obtain ⟨es, hes, -⟩ := h
      exact hes.params ▸ hstd
    exact h.trans_emits (labelStep_emits u t) (labelEvents_legal hstd' u)
  inputs t _ h := h.trans_emits (es := []) ⟨rfl, rfl, rfl, rfl⟩ (by simp)
  drawn t _ h := h.trans_emits (es := []) ⟨rfl, rfl, rfl, rfl⟩ (by simp)

/-- Settles O19: legality of the events since `s` is kept by every part of a step. -/
theorem onlySummaryAccessesAreMade : Obligations.OnlySummaryAccessesAreMade := by
  intro s t hstd h
  have start : EmitsLegal s s := ⟨[], Emits.refl s, by simp⟩
  obtain ⟨es, ⟨htrace, hparams, hgier, hisr⟩, hlegal⟩ := (emitsLegal_stepClosed hstd).step start h
  exact ⟨⟨es, htrace, hlegal⟩, hgier, hisr, hparams⟩

end Sys2Proof.Machine

end

section

/-! The invariant of R51: each of its parts through a label's step, then through the host events. -/

namespace Sys2Proof.Machine

/-! ### The position -/

theorem movesWord_of_idxInRange {p : Params} {k : Kind} {i : BitVec 3} (h : idxInRange p k i = true) :
    movesWord k = true := by
  cases k with
  | en | dis => simp [idxInRange] at h
  | rd | wr => rfl

/-- R152: the first position is in range. -/
theorem idxInRange_firstIdx {p : Params} {k : Kind} (hp : paramsWf p) (hk : movesWord k = true) :
    idxInRange p k (firstIdx p k) = true := by
  obtain ⟨-, -, hmin, hmax, -⟩ := hp
  rcases kind_of_movesWord hk with rfl | rfl <;> simp [idxInRange, firstIdx] <;> omega

/-- R157: every position but the last has the next one in range. -/
theorem idxInRange_pred {p : Params} {k : Kind} {i : BitVec 3} (h : idxInRange p k i = true) (hi : i ≠ lastIdx k) :
    idxInRange p k (i - 1#3) = true := by
  rcases kind_of_movesWord (movesWord_of_idxInRange h) with rfl | rfl <;>
    simp [idxInRange, lastIdx] at h hi ⊢ <;> bv_omega

/-- R26, R62: a position in range is inside the buffer. -/
theorem idxInRange_lt_cbSize {p : Params} {k : Kind} {i : BitVec 3} (hp : paramsWf p)
    (h : idxInRange p k i = true) : i.toNat < p.cbSize := by
  obtain ⟨-, -, -, hword, hsize, -⟩ := hp
  rcases kind_of_movesWord (movesWord_of_idxInRange h) with rfl | rfl <;> simp [idxInRange] at h <;> omega

/-- Outside the transaction's labels R51 asks only that `tmo` is clear. -/
theorem positionOk_of_owner_ne_txn {s : State} (h : s.step.owner ≠ .txn) : s.positionOk = !s.tmo := by
  unfold State.positionOk
  cases hl : s.step <;> simp [hl, Label.owner] at h ⊢

/-- R24, R51: at a transaction's label the block is busy. -/
theorem owner_ne_txn_of_not_busy {s : State} (h : s.positionOk = true) (hb : s.busy = false) :
    s.step.owner ≠ .txn := by
  unfold State.positionOk at h
  cases hl : s.step <;> simp [hl, hb, Label.owner] at h ⊢

/-- R51: the data labels have `idx` in range. -/
theorem idxInRange_of_positionOk {s : State} (h : s.positionOk = true) (hl : s.step.isData = true) :
    idxInRange s.params s.kind s.idx = true := by
  unfold State.positionOk at h
  cases hs : s.step <;> simp [hs, Label.isData] at h hl <;> simp [h]

theorem idleStep_positionOk {s : State} (u : Draw) (hl : s.step = .idle) (h : s.positionOk = true) :
    (idleStep u s).positionOk = true := by
  have ht : s.tmo = false := by simpa [State.positionOk, hl] using h
  rcases idleStep_cases u s with ⟨hb, -, e⟩ | ⟨-, e⟩ | ⟨-, -, e⟩ <;> rw [e]
  · cases hk : s.kind <;> simp [State.positionOk, firstLabel, movesWord, hb, ht]
  · simp [State.positionOk, ht]
  · exact h

/-- R123, R124, R126, R127: a poll iteration keeps R51 where its successor label does and where the count below the
bound does. -/
theorem pollOnce_positionOk {s : State} {bound : BitVec 14} {l : Label} (passes : Bool) (hb : s.busy = true)
    (hk : movesWord s.kind = true) (hlt : s.poll < bound)
    (hnext : { s with poll := 0#14, step := l }.positionOk = true)
    (hstay : ∀ n, n < bound → { s with poll := n }.positionOk = true) :
    (pollOnce passes bound l s).positionOk = true := by
  rcases pollOnce_cases passes bound l s with ⟨-, e⟩ | ⟨-, -, hm, e⟩ | ⟨-, -, -, e⟩ | ⟨-, hne, e⟩ <;> rw [e]
  · exact hnext
  · simp [State.positionOk, hb, hk, hm]
  · exact hnext
  · exact hstay _ (by bv_omega)

/-- R157: the end of a data exchange goes to a position in range or to the restore. -/
theorem nextDataByte_positionOk {s : State} (hb : s.busy = true) (ht : s.tmo = false)
    (hi : idxInRange s.params s.kind s.idx = true) : (nextDataByte s).positionOk = true := by
  unfold nextDataByte
  split
  · simp [State.positionOk, hb, ht, movesWord_of_idxInRange hi]
  · rename_i hne
    simp [State.positionOk, hb, ht, idxInRange_pred hi hne]

/-- R51: a label's step leads to a position the rules speak of. -/
theorem labelStep_positionOk {s : State} (u : Draw) (hp : paramsWf s.params) (h : s.positionOk = true) :
    (labelStep u s).positionOk = true := by
  have ⟨htxne, hrxne, _⟩ := hp
  have htx : 0#14 < s.params.txPollMax := by bv_omega
  have hrx : 0#14 < s.params.rxPollMax := by bv_omega
  unfold labelStep
  cases hl : s.step with
  | idle => exact idleStep_positionOk u hl h
  | adrPtx | adrPrx =>
    obtain ⟨⟨⟨hb, ht⟩, hk⟩, hlt⟩ :
        ((s.busy = true ∧ s.tmo = false) ∧ movesWord s.kind = true) ∧ s.poll < _ := by
      simpa [State.positionOk, hl] using h
    exact pollOnce_positionOk _ hb hk hlt (by simp [State.positionOk, hb, ht, hk, hrx])
      (fun n hn => by simp [State.positionOk, hl, hb, ht, hk, hn])
  | datPtx | datPrx =>
    obtain ⟨⟨⟨hb, ht⟩, hi⟩, hlt⟩ :
        ((s.busy = true ∧ s.tmo = false) ∧ idxInRange s.params s.kind s.idx = true) ∧ s.poll < _ := by
      simpa [State.positionOk, hl] using h
    exact pollOnce_positionOk _ hb (movesWord_of_idxInRange hi) hlt (by simp [State.positionOk, hb, ht, hi, hrx])
      (fun n hn => by simp [State.positionOk, hl, hb, ht, hi, hn])
  | datDrr =>
    obtain ⟨⟨hb, ht⟩, hi⟩ :
        (s.busy = true ∧ s.tmo = false) ∧ idxInRange s.params s.kind s.idx = true := by
      simpa [State.positionOk, hl] using h
    dsimp only
    rw [datDrr, storeReceived_eq]
    exact nextDataByte_positionOk hb ht hi
  | adrDrr =>
    obtain ⟨⟨hb, ht⟩, hk⟩ : (s.busy = true ∧ s.tmo = false) ∧ movesWord s.kind = true := by
      simpa [State.positionOk, hl] using h
    simp [State.positionOk, adrDrr, hb, ht, idxInRange_firstIdx hp hk]
  | adrCr | datCr => simpa [State.positionOk, hl, xCr, htx] using h
  | cfgIer | cfgSsr | cfgCr | adrDtr | adrSsr | datDtr | rstCr | rstSsr | irqDis | irqDrr | irqEn | irqAck =>
    -- R51 asks the same of the successor, and the step writes none of the fields it asks about.
    simp only [State.positionOk, hl] at h
    exact h
  | rstIer => simp [State.positionOk, rstIer]
  | ienIer =>
    obtain ⟨⟨-, ht⟩, -⟩ : (s.busy = true ∧ s.tmo = false) ∧ movesWord s.kind = false := by
      simpa [State.positionOk, hl] using h
    simp [State.positionOk, ienIer, ht]

/-! ### The Command Buffer -/

/-- R29, R156: the Command Buffer changes at a read's `DAT_DRR` only. -/
theorem labelStep_cb (u : Draw) (s : State) :
    (labelStep u s).cb = if s.step = .datDrr ∧ s.kind = .rd then Memory.write s.cb s.idx.toNat u.drr else s.cb := by
  unfold labelStep
  cases s.step with
  | idle => dsimp only; rw [idleStep_frame]; rfl
  | adrPtx | adrPrx | datPtx | datPrx => dsimp only [xPtx, xPrx]; rw [pollOnce_frame]; rfl
  | datDrr => dsimp only; rw [datDrr_frame]; simp
  | _ => rfl

/-- R28, R160: `cb_len` changes at `RST_IER` only. -/
theorem labelStep_cbLen (u : Draw) (s : State) :
    (labelStep u s).cbLen = if s.step = .rstIer then completedLen s else s.cbLen := by
  unfold labelStep
  cases s.step with
  | idle => dsimp only; rw [idleStep_frame]; rfl
  | adrPtx | adrPrx | datPtx | datPrx => dsimp only [xPtx, xPrx]; rw [pollOnce_frame]; rfl
  | datDrr => dsimp only; rw [datDrr_frame]; rfl
  | _ => rfl

theorem completedLen_le_cbSize {s : State} (hp : paramsWf s.params) (h : s.cbLen.toNat ≤ s.params.cbSize) :
    (completedLen s).toNat ≤ s.params.cbSize := by
  obtain ⟨-, -, -, hword, hsize, -⟩ := hp
  unfold completedLen
  split
  · simp; omega
  · exact h

/-! ### The invariant through each part of a step -/

theorem labelStep_inv (u : Draw) {s : State} (h : s.Inv) : (labelStep u s).Inv := by
  obtain ⟨hpos, hwf, hin, hlen, hp⟩ := h
  have hparams := (labelStep_emits u s).params
  refine ⟨labelStep_positionOk u hp hpos, ?_, ?_, ?_, hparams ▸ hp⟩
  · rw [labelStep_cb]
    split
    · exact Memory.write_wf _ hwf _ _
    · exact hwf
  · rw [labelStep_cb, hparams]
    split
    · rename_i hd
      have hi := idxInRange_of_positionOk hpos (by rw [hd.1]; rfl)
      exact Memory.write_within hin (idxInRange_lt_cbSize hp hi) _
    · exact hin
  · rw [labelStep_cbLen, hparams]
    split
    · exact completedLen_le_cbSize hp hlen
    · exact hlen

/-- R142: a load that fits the buffer keeps the invariant. -/
theorem loadCommand_inv {s : State} {bs : List Byte} (h : s.Inv) (hbs : bs.length ≤ s.params.cbSize) :
    (s.loadCommand bs).Inv := by
  obtain ⟨hpos, hwf, hin, -, hp⟩ := h
  have hlen : (BitVec.ofNat 8 bs.length).toNat ≤ s.params.cbSize := by simp; omega
  exact ⟨hpos, loadCommand_wf hwf bs, Memory.load_within bs s.cb hin 0 (by omega), hlen, hp⟩

/-- R143: accepting a command where none is in flight keeps the invariant. -/
theorem accept_inv {s : State} (h : s.Inv) (hb : s.busy = false) (k : Kind) : (s.accept k).Inv := by
  obtain ⟨hpos, hwf, hin, hlen, hp⟩ := h
  have hown : (s.accept k).step.owner ≠ .txn := owner_ne_txn_of_not_busy (s := s) hpos hb
  exact ⟨by rw [positionOk_of_owner_ne_txn hown]; rfl, hwf, hin, hlen, hp⟩

theorem submit_inv (bs : List Byte) {s : State} (h : s.Inv) : (submit bs s).Inv := by
  rcases submit_cases bs s with ⟨-, e⟩ | ⟨-, -, e⟩ | ⟨-, ⟨r, hd, hr⟩, e⟩ | ⟨hb, i, hd, e⟩ <;> rw [e]
  · exact h
  · exact h
  · exact loadCommand_inv h (length_le_of_decode hd (by simpa using hr))
  · exact accept_inv (loadCommand_inv h (length_le_of_decode hd (by simp))) hb i.kind

/-- R51, R220: `Reset` leads into the invariant from any state. -/
theorem resetBlock_inv {s : State} (hp : paramsWf s.params) : (resetBlock s).Inv :=
  ⟨rfl, ⟨List.Pairwise.nil, by simp [resetBlock]⟩, by simp [resetBlock], by simp [resetBlock], hp⟩

theorem inv_stepClosed : StepClosed State.Inv where
  submit bs _ h := submit_inv bs h
  readBack _ h := h
  reset _ h := by
    obtain ⟨-, -, -, -, hp⟩ := h
    exact resetBlock_inv hp
  label u _ _ h := labelStep_inv u h
  inputs _ _ h := h
  drawn _ _ h := h

/-- Settles O12: `Reset` leads into the invariant, and every part of a step keeps it. -/
theorem invariantKeptByEveryStep : Obligations.InvariantKeptByEveryStep := by
  refine ⟨fun s t rest hi hp h => ?_, fun s t hs h => inv_stepClosed.step hs h⟩
  have hstep : step s = .next (resetBlock { s with inputs := rest }) := by
    rw [step_of_not_command (by simp [hi]), advance, hi]
  rw [hstep] at h
  cases h
  exact resetBlock_inv hp

end Sys2Proof.Machine

end

section

/-! One scripted step at the labels that belong to every word transfer, and the address phase (R149, R150, R152). -/

namespace Sys2Proof.Machine

/-- The labels of a word transfer outside its data exchanges: R51 asks of them only that the command moves a word. -/
def wordLabels : List Label :=
  [.cfgIer, .cfgSsr, .cfgCr, .adrDtr, .adrSsr, .adrCr, .adrPtx, .adrPrx, .adrDrr, .rstCr, .rstSsr, .rstIer]

theorem hasRule_of_mem_wordLabels {s : State} (hl : s.step ∈ wordLabels) (hm : s.Moves) : s.hasRule = true := by
  have hk : movesWord s.kind = true := by rcases hm with h | h <;> rw [h] <;> rfl
  unfold State.hasRule
  cases h : s.step <;> simp [h, wordLabels] at hl <;> exact hk

/-- At a label of every word transfer, a scripted step is that label's step. -/
theorem step_wordLabel {s : State} {l : Label} {u : Draw} {rest : List Input} (h : s.At l u rest) (hm : s.Moves)
    (hl : l ∈ wordLabels) : step s = .next (labelStep u { s with inputs := rest }) := by
  obtain ⟨rfl, hi⟩ := h
  rw [step_tick hi]
  exact microStep_of_hasRule (hasRule_of_mem_wordLabels hl hm)

section

variable {s : State} {u : Draw} {rest : List Input} (hm : s.Moves)
include hm

/-- R149: the address byte of the kind is written. -/
theorem step_adrDtr (h : s.At .adrDtr u rest) :
    step s = .next (xDtr (abyte s.params s.kind s.addr) .adrSsr { s with inputs := rest }) := by
  rw [step_wordLabel h hm (by decide)]
  simp only [labelStep, h.1]

/-- R150: chip-select 0 is asserted. -/
theorem step_adrSsr (h : s.At .adrSsr u rest) : step s = .next (adrSsr { s with inputs := rest }) := by
  rw [step_wordLabel h hm (by decide)]
  simp only [labelStep, h.1]

/-- R152: the answer is discarded and `idx` takes the first position of the kind. -/
theorem step_adrDrr (h : s.At .adrDrr u rest) : step s = .next (adrDrr u { s with inputs := rest }) := by
  rw [step_wordLabel h hm (by decide)]
  simp only [labelStep, h.1]

end

/-- Settles O33: each clause is its label's step, with the address byte, the chip-select word or the first position that
R9's literals give for the kind. -/
theorem addressPhaseStepsAreAsOrdered : Obligations.AddressPhaseStepsAreAsOrdered := by
  intro s u rest hstd
  refine ⟨fun h hk => ?_, fun h hk => ?_, fun h hm => ?_, fun h hk => ?_, fun h hk => ?_⟩
  · rw [step_adrDtr (.inl hk) h, hk, abyte_rd]
    rfl
  · rw [step_adrDtr (.inr hk) h, hk, abyte_wr hstd]
    rfl
  · rw [step_adrSsr hm h, ← hstd.ssAssert]
    rfl
  · rw [step_adrDrr (.inl hk) h, ← firstIdx_rd hstd, ← hk]
    rfl
  · rw [step_adrDrr (.inr hk) h, ← firstIdx_wr hstd, ← hk]
    rfl

end Sys2Proof.Machine

end

section

/-! One scripted step of a byte exchange's pulse and of its two polls (R122 to R124, R126, R127), and the host's run of a
poll loop (R128), in any state at these labels: unlike a `drive`, the host's run does not ask that the block is busy. -/

namespace Sys2Proof.Machine

/-! ### The data labels -/

theorem State.InData.moves {s : State} (h : s.InData) : s.Moves := by
  rcases h with ⟨hk, -⟩ | ⟨hk, -⟩
  · exact .inl hk
  · exact .inr hk

/-- R26: at the data labels R51 asks that `idx` is a position of one of the kind's data bytes. -/
theorem hasRule_of_inData {s : State} (hl : s.step.isData = true) (hd : s.InData) : s.hasRule = true := by
  have hi : idxInRange s.params s.kind s.idx = true := by
    rcases hd with ⟨hk, hlt⟩ | ⟨hk, hge, hlt⟩
    · simp [idxInRange, hk, hlt]
    · simp [idxInRange, hk, hge, hlt]
  unfold State.hasRule
  cases h : s.step <;> simp [h, Label.isData] at hl <;> exact hi

/-- At a data label with a position in range, a scripted step is that label's step. -/
theorem step_dataLabel {s : State} {l : Label} {u : Draw} {rest : List Input} (h : s.At l u rest) (hd : s.InData)
    (hl : l.isData = true) : step s = .next (labelStep u { s with inputs := rest }) := by
  obtain ⟨rfl, hi⟩ := h
  rw [step_tick hi]
  exact microStep_of_hasRule (hasRule_of_inData hl hd)

/-! ### The pulse -/

section

variable {s : State} {u : Draw} {rest : List Input}

theorem step_adrCr (hm : s.Moves) (h : s.At .adrCr u rest) : step s = .next (xCr .adrPtx { s with inputs := rest }) := by
  rw [step_wordLabel h hm (by decide)]
  simp only [labelStep, h.1]

theorem step_datCr (hd : s.InData) (h : s.At .datCr u rest) : step s = .next (xCr .datPtx { s with inputs := rest }) := by
  rw [step_dataLabel h hd rfl]
  simp only [labelStep, h.1]

end

/-- Settles O34: the address exchange and the data exchanges share `X_CR`, and R99's word is the kind's literal. -/
theorem pulseClearsInhibitAndPollCount : Obligations.PulseClearsInhibitAndPollCount := by
  intro s u rest l next v hstd hl hrd hwr h
  have hstep : s.Moves ∧ step s = .next (xCr next { s with inputs := rest }) := by
    rcases hl with ⟨rfl, rfl, hm⟩ | ⟨rfl, rfl, hd⟩
    · exact ⟨hm, step_adrCr hm h⟩
    · exact ⟨hd.moves, step_datCr hd h⟩
  obtain ⟨hm, e⟩ := hstep
  have hv : v = cwRun s.params s.kind := by
    rcases hm with hk | hk
    · rw [hrd hk, hk, cwRun_rd hstd]
    · rw [hwr hk, hk, cwRun_wr hstd]
  rw [e, hv]
  rfl

/-! ### One iteration of a poll -/

section

variable {bound : BitVec 14} {next : Label} {s : State}

theorem pollOnce_passes : pollOnce true bound next s = { s with poll := 0#14, step := next } := rfl

theorem pollOnce_below (h : s.poll + 1#14 ≠ bound) :
    pollOnce false bound next s = { s with poll := s.poll + 1#14 } := by simp [pollOnce, h]

theorem pollOnce_aborts (h : s.poll + 1#14 = bound) (hm : s.params.timeoutMode = .abort) :
    pollOnce false bound next s = { s with tmo := true, poll := 0#14, step := .rstCr } := by
  simp [pollOnce, timeout, h, hm]

theorem pollOnce_fallsThrough (h : s.poll + 1#14 = bound) (hm : s.params.timeoutMode = .legacy) :
    pollOnce false bound next s = { s with poll := 0#14, step := next } := by simp [pollOnce, timeout, h, hm]

end

/-- `s` stands in a poll loop that the rules speak of: each micro-step at its label is one iteration, which tests Status
bit `bit` for the value `wanted`, with this bound and successor (R123, R124). -/
structure PollsFor (s : State) (bit : Nat) (wanted : Bool) (bound : BitVec 14) (next : Label) : Prop where
  hasRule : s.hasRule = true
  iteration : ∀ u t, t.step = s.step → t.params = s.params →
    labelStep u t = pollOnce (u.sr.getLsbD bit == wanted) bound next (t.memRead32 .sr u.sr)

theorem IsPoll.pollsFor {s : State} {next : Label} {passes : Params → Draw → Bool} {maxReads : Params → BitVec 14}
    {bit : Nat} {wanted : Bool} (hp : IsPoll s.step next passes maxReads) (hr : s.hasRule = true)
    (htest : ∀ u, passes s.params u = (u.sr.getLsbD bit == wanted)) :
    PollsFor s bit wanted (maxReads s.params) next :=
  ⟨hr, fun u t ht hparams => by rw [hp u t ht, hparams, htest]⟩

/-- R123: the transmit-empty poll of both exchanges waits for bit 2 to be set. -/
theorem pollsFor_transmit {s : State} {next : Label} (hstd : s.params.Standard)
    (h : (s.step = .adrPtx ∧ next = .adrPrx ∧ s.Moves) ∨ (s.step = .datPtx ∧ next = .datPrx ∧ s.InData)) :
    PollsFor s 2 true s.params.txPollMax next := by
  have htest : ∀ u : Draw, srTxEmpty s.params u.sr = (u.sr.getLsbD 2 == true) := fun u => by
    rw [srTxEmpty_eq hstd, beq_true]
  rcases h with ⟨hl, rfl, hm⟩ | ⟨hl, rfl, hd⟩
  · exact (hl ▸ isPoll_adrPtx).pollsFor (hasRule_of_mem_wordLabels (by simp [hl, wordLabels]) hm) htest
  · exact (hl ▸ isPoll_datPtx).pollsFor (hasRule_of_inData (by rw [hl]; rfl) hd) htest

/-- R124: the receive-not-empty poll of both exchanges waits for bit 0 to be clear. -/
theorem pollsFor_receive {s : State} {next : Label} (hstd : s.params.Standard)
    (h : (s.step = .adrPrx ∧ next = .adrDrr ∧ s.Moves) ∨ (s.step = .datPrx ∧ next = .datDrr ∧ s.InData)) :
    PollsFor s 0 false s.params.rxPollMax next := by
  have htest : ∀ u : Draw, srRxNotEmpty s.params u.sr = (u.sr.getLsbD 0 == false) := fun u => by
    rw [srRxNotEmpty_eq hstd, beq_false]
  rcases h with ⟨hl, rfl, hm⟩ | ⟨hl, rfl, hd⟩
  · exact (hl ▸ isPoll_adrPrx).pollsFor (hasRule_of_mem_wordLabels (by simp [hl, wordLabels]) hm) htest
  · exact (hl ▸ isPoll_datPrx).pollsFor (hasRule_of_inData (by rw [hl]; rfl) hd) htest

namespace PollsFor

variable {s : State} {bit : Nat} {wanted : Bool} {bound : BitVec 14} {next : Label}

theorem congr {t : State} (h : PollsFor s bit wanted bound next) (h1 : t.step = s.step) (h2 : t.kind = s.kind)
    (h3 : t.idx = s.idx) (h4 : t.params = s.params) : PollsFor t bit wanted bound next :=
  ⟨(hasRule_congr h1 h2 h3 h4).trans h.hasRule, fun u r hr hp => h.iteration u r (hr.trans h1) (hp.trans h4)⟩

variable (h : PollsFor s bit wanted bound next) {u : Draw} {rest : List Input}
include h

/-- A scripted step is one iteration, after its Status read. -/
theorem step_eq (hi : s.inputs = .tick u :: rest) :
    step s = .next (pollOnce (u.sr.getLsbD bit == wanted) bound next ({ s with inputs := rest }.memRead32 .sr u.sr)) := by
  rw [step_tick hi, ← h.iteration u { s with inputs := rest } rfl rfl]
  exact microStep_of_hasRule h.hasRule

/-- Everything an iteration does, by the answer, the incremented count and the timeout mode. -/
theorem iterates (hi : s.inputs = .tick u :: rest) :
    let t := { s with inputs := rest, ctl := { s.ctl with sr := u.sr }, trace := .r32 .sr u.sr :: s.trace }
    (u.sr.getLsbD bit = wanted → step s = .next { t with poll := 0#14, step := next }) ∧
    (u.sr.getLsbD bit ≠ wanted → s.poll + 1#14 ≠ bound → step s = .next { t with poll := s.poll + 1#14 }) ∧
    (u.sr.getLsbD bit ≠ wanted → s.poll + 1#14 = bound → s.params.timeoutMode = .abort →
      step s = .next { t with tmo := true, poll := 0#14, step := .rstCr }) ∧
    (u.sr.getLsbD bit ≠ wanted → s.poll + 1#14 = bound → s.params.timeoutMode = .legacy →
      step s = .next { t with poll := 0#14, step := next }) := by
  intro t
  have hread : { s with inputs := rest }.memRead32 .sr u.sr = t := rfl
  rw [h.step_eq hi, hread]
  refine ⟨fun hw => ?_, fun hw hb => ?_, fun hw hb hm => ?_, fun hw hb hm => ?_⟩
  · rw [beq_iff_eq.2 hw, pollOnce_passes]
  · rw [beq_eq_false_iff_ne.2 hw, pollOnce_below (s := t) hb]
  · rw [beq_eq_false_iff_ne.2 hw, pollOnce_aborts (s := t) hb hm]
  · rw [beq_eq_false_iff_ne.2 hw, pollOnce_fallsThrough (s := t) hb hm]

end PollsFor

/-- Settles O35: the iteration of a poll that waits for bit 2 to be set. -/
theorem transmitPollIteration : Obligations.TransmitPollIteration := by
  rintro s u rest l next hstd hl ⟨rfl, hi⟩
  simpa only [ne_eq, Bool.not_eq_true] using (pollsFor_transmit hstd hl).iterates hi

/-- Settles O36: the iteration of a poll that waits for bit 0 to be clear. -/
theorem receivePollIteration : Obligations.ReceivePollIteration := by
  rintro s u rest l next hstd hl ⟨rfl, hi⟩
  simpa only [ne_eq, Bool.not_eq_false] using (pollsFor_receive hstd hl).iterates hi

/-! ### The run of a poll loop -/

theorem trace_read_after_polled (s : State) (us : List Draw) (w : Draw) (v : Word) (rest : List Input) :
    ((s.polled us v rest).memRead32 .sr w.sr).trace = statusReads (us ++ [w]) ++ s.trace := by
  simp [State.polled, statusReads]

namespace PollsFor

variable {bit : Nat} {wanted : Bool} {bound : BitVec 14} {next : Label}

/-- R128: failing answers below the bound are read and counted, whatever is run after them. -/
theorem run_fails (us : List Draw) : ∀ (s : State) (rest : List Input), PollsFor s bit wanted bound next →
    s.inputs = us.map Input.tick ++ rest → (∀ u ∈ us, u.sr.getLsbD bit ≠ wanted) →
    s.poll.toNat + us.length < bound.toNat →
    ∃ v, ∀ k, Sys2Proof.core.run (us.length + k) s = Sys2Proof.core.run k (s.polled us v rest) := by
  induction us with
  | nil =>
    intro s rest _ hi _ _
    have hs : s.polled [] s.ctl.sr rest = s := by
      subst hi
      simp [State.polled, statusReads]
    exact ⟨s.ctl.sr, fun k => by rw [hs, List.length_nil, Nat.zero_add]⟩
  | cons u us ih =>
    intro s rest h hi hf hlt
    rw [List.length_cons] at hlt
    have hne : s.poll + 1#14 ≠ bound := by bv_omega
    obtain ⟨-, hstay, -⟩ := h.iterates hi
    have hstep : step s = .next (s.polled [u] u.sr (us.map Input.tick ++ rest)) := hstay (hf u List.mem_cons_self) hne
    obtain ⟨v, hrun⟩ := ih (s.polled [u] u.sr (us.map Input.tick ++ rest)) rest (h.congr rfl rfl rfl rfl) rfl
      (fun w hw => hf w (List.mem_cons_of_mem u hw)) (by simp only [State.polled, List.length_singleton]; bv_omega)
    have hpolled : (s.polled [u] u.sr (us.map Input.tick ++ rest)).polled us v rest = s.polled (u :: us) v rest := by
      simp [State.polled, statusReads, BitVec.add_assoc, ← BitVec.ofNat_add, Nat.add_comm]
    refine ⟨v, fun k => ?_⟩
    rw [List.length_cons, Nat.add_right_comm, core_run_next hstep, hrun, hpolled]

variable {s : State} (h : PollsFor s bit wanted bound next) (h0 : s.poll = 0#14) {us : List Draw} {w : Draw}
  {rest : List Input} (hf : ∀ u ∈ us, u.sr.getLsbD bit ≠ wanted) (hlt : us.length < bound.toNat)
include h h0 hf hlt

/-- R128: a loop that has met only failing answers, fewer than its bound, is at its label with their number counted. -/
theorem run_stays (hi : s.inputs = us.map Input.tick ++ rest) :
    ∃ v, Sys2Proof.core.run us.length s = .next (s.polled us v rest) := by
  obtain ⟨v, hrun⟩ := run_fails us s rest h hi hf (by simpa [h0] using hlt)
  exact ⟨v, hrun 0⟩

/-- R128: one more iteration after failing answers, fewer than the bound. -/
theorem run_last (hi : s.inputs = us.map Input.tick ++ .tick w :: rest) :
    Sys2Proof.core.run (us.length + 1) s =
      .next (pollOnce (w.sr.getLsbD bit == wanted) bound next ((s.polled us w.sr rest).memRead32 .sr w.sr)) := by
  obtain ⟨v, hrun⟩ := run_fails us s (.tick w :: rest) h hi hf (by simpa [h0] using hlt)
  have hlast : PollsFor (s.polled us v (.tick w :: rest)) bit wanted bound next := h.congr rfl rfl rfl rfl
  exact (hrun 1).trans (core_run_next (hlast.step_eq rfl) 0)

end PollsFor

/-- Settles O37: below the bound the failing answers are counted; the read after them passes, or it makes the count
equal to the bound. -/
theorem pollLoopReadCount : Obligations.PollLoopReadCount := by
  intro s us rest next bit wanted bound hloop hstd h0 hf
  have h : PollsFor s bit wanted bound next := by
    rcases hloop with ⟨hl, hn, hm, rfl, rfl, rfl⟩ | ⟨hl, hn, hd, rfl, rfl, rfl⟩ | ⟨hl, hn, hm, rfl, rfl, rfl⟩ |
      ⟨hl, hn, hd, rfl, rfl, rfl⟩
    · exact pollsFor_transmit hstd (.inl ⟨hl, hn, hm⟩)
    · exact pollsFor_transmit hstd (.inr ⟨hl, hn, hd⟩)
    · exact pollsFor_receive hstd (.inl ⟨hl, hn, hm⟩)
    · exact pollsFor_receive hstd (.inr ⟨hl, hn, hd⟩)
  refine ⟨fun hlt hi => ?_, fun w hlt hw hi => ?_, fun hpos hlen hi => ?_⟩
  · obtain ⟨v, hrun⟩ := h.run_stays h0 hf hlt hi
    have hcount : (s.polled us v rest).poll.toNat = us.length := by simp only [State.polled, h0]; bv_omega
    exact ⟨_, hrun, rfl, hcount, rfl, rfl⟩
  · have hrun := h.run_last h0 hf hlt hi
    rw [beq_iff_eq.2 hw, pollOnce_passes] at hrun
    exact ⟨_, hrun, rfl, rfl, rfl, rfl, trace_read_after_polled s us w w.sr rest⟩
  · obtain ⟨vs, w, rfl⟩ := (List.eq_nil_or_concat' us).resolve_left (List.ne_nil_of_length_pos hpos)
    rw [List.length_append, List.length_singleton] at hlen ⊢
    have hrun := h.run_last h0 (fun u hu => hf u (List.mem_append_left [w] hu)) (by omega) (w := w) (by simpa using hi)
    rw [beq_eq_false_iff_ne.2 (hf w (by simp))] at hrun
    have hcount : (s.polled vs w.sr rest).poll + 1#14 = bound := by simp only [State.polled, h0]; bv_omega
    have htrace := trace_read_after_polled s vs w w.sr rest
    cases hm : s.params.timeoutMode with
    | abort =>
      rw [pollOnce_aborts (s := (s.polled vs w.sr rest).memRead32 .sr w.sr) hcount hm] at hrun
      exact ⟨_, hrun, rfl, rfl, fun _ => ⟨rfl, rfl⟩, nofun, htrace⟩
    | legacy =>
      rw [pollOnce_fallsThrough (s := (s.polled vs w.sr rest).memRead32 .sr w.sr) hcount hm] at hrun
      exact ⟨_, hrun, rfl, rfl, nofun, fun _ => ⟨rfl, rfl⟩, htrace⟩

end Sys2Proof.Machine

end

section

/-! The host's view of the Command Buffer (R166, R220). -/

namespace Sys2Proof.Machine

theorem Memory.length_first (m : Memory) (n : Nat) : (Memory.first m n).length = n := by simp [Memory.first]

theorem Memory.getElem?_first (m : Memory) {n k : Nat} (h : k < n) :
    (Memory.first m n)[k]? = some (Memory.read m k) := by simp [Memory.first, h]

section

variable {s : State} {rest : List Input}

theorem step_readBack (h : s.inputs = .readBack :: rest) : step s = .next (readBack { s with inputs := rest }) := by
  rw [step_of_not_command (by simp [h]), advance, h]

theorem step_reset (h : s.inputs = .reset :: rest) : step s = .next (resetBlock { s with inputs := rest }) := by
  rw [step_of_not_command (by simp [h]), advance, h]

end

/-- Settles O28: a `ReadBack` emits the first `cb_len` bytes of the buffer, and a `Reset` leaves `cb_len` 0. -/
theorem readBackReturnsTheBuffer : Obligations.ReadBackReturnsTheBuffer := by
  refine ⟨fun s rest hi => ?_, fun s rest hi => ?_⟩
  · exact ⟨_, step_readBack hi, Memory.length_first _ _, fun k hk => Memory.getElem?_first _ hk⟩
  · have hreset : (resetBlock { s with inputs := .readBack :: rest }).inputs = .readBack :: rest := rfl
    exact ⟨_, _, step_reset hi, step_readBack hreset, rfl⟩

end Sys2Proof.Machine

end

section

/-! One scripted step at the configure and the restore labels (R146 to R148, R158 to R160). -/

namespace Sys2Proof.Machine

/-- At a label of every word transfer whose step is `f`, a scripted step is `f`. -/
theorem step_wordLabel_eq {s : State} {l : Label} {u : Draw} {rest : List Input} {f : State → State}
    (h : s.At l u rest) (hm : s.Moves) (hl : l ∈ wordLabels)
    (hf : ∀ t : State, labelStep u { t with step := l } = f { t with step := l }) :
    step s = .next (f { s with inputs := rest }) := by
  obtain ⟨rfl, hi⟩ := h
  rw [step_wordLabel ⟨rfl, hi⟩ hm hl]
  exact congrArg _ (hf { s with inputs := rest })

section

variable {s : State} {u : Draw} {rest : List Input} (hm : s.Moves)
include hm

theorem step_cfgIer (h : s.At .cfgIer u rest) : step s = .next (cfgIer { s with inputs := rest }) :=
  step_wordLabel_eq h hm (by decide) fun _ => rfl

theorem step_cfgSsr (h : s.At .cfgSsr u rest) : step s = .next (cfgSsr { s with inputs := rest }) :=
  step_wordLabel_eq h hm (by decide) fun _ => rfl

theorem step_cfgCr (h : s.At .cfgCr u rest) : step s = .next (cfgCr { s with inputs := rest }) :=
  step_wordLabel_eq h hm (by decide) fun _ => rfl

theorem step_rstCr (h : s.At .rstCr u rest) : step s = .next (rstCr { s with inputs := rest }) :=
  step_wordLabel_eq h hm (by decide) fun _ => rfl

theorem step_rstSsr (h : s.At .rstSsr u rest) : step s = .next (rstSsr { s with inputs := rest }) :=
  step_wordLabel_eq h hm (by decide) fun _ => rfl

theorem step_rstIer (h : s.At .rstIer u rest) : step s = .next (rstIer { s with inputs := rest }) :=
  step_wordLabel_eq h hm (by decide) fun _ => rfl

end

/-- Settles O32: each clause is its label's step, with the word R9's literals give; `ierOff` is a literal of its own. -/
theorem configureStepsWriteTheirConstants : Obligations.ConfigureStepsWriteTheirConstants := by
  intro s u rest hstd hm
  refine ⟨fun h => ?_, fun h => ?_, fun h hk => ?_, fun h hk => ?_⟩
  · exact step_cfgIer hm h
  · rw [step_cfgSsr hm h, ← hstd.ssDeassert]
    rfl
  · rw [step_cfgCr hm h, ← cwCfg_rd hstd, ← hk]
    rfl
  · rw [step_cfgCr hm h, ← cwCfg_wr hstd, ← hk]
    rfl

/-! ### The completion -/

section

variable {s : State}

/-- R160, R193: a transfer that timed out keeps `cb_len`, a read's too. -/
theorem completedLen_timedOut (ht : s.tmo = true) : completedLen s = s.cbLen := by
  simp [completedLen, completionCode, ht]

/-- R160: a completed read leaves the length of its word. -/
theorem completedLen_rd (hstd : s.params.Standard) (hk : s.kind = .rd) (ht : s.tmo = false) : completedLen s = 4#8 := by
  simp [completedLen, completionCode, hk, ht, hstd.wordBytes]

/-- R160: a write keeps `cb_len`. -/
theorem completedLen_wr (hk : s.kind = .wr) : completedLen s = s.cbLen := by simp [completedLen, hk]

end

/-- R160: the completing step, by the code and the length it leaves. -/
theorem step_rstIer_completes {s : State} {u : Draw} {rest : List Input} (hstd : s.params.Standard) (hm : s.Moves)
    (h : s.At .rstIer u rest) {c : Code} {n : BitVec 8} (hc : completionCode s.tmo = c) (hn : completedLen s = n) :
    step s = .next { s with inputs := rest, step := .idle, busy := false, tmo := false, status := c, cbLen := n, ctl := { s.ctl with ier := 0x00000010#32 }, trace := .done c :: .w32 .ier 0x00000010#32 :: s.trace } := by
  rw [step_rstIer hm h, ← hc, ← hn, ← ierOn_eq hstd]
  rfl

/-- Settles O40: the restore labels write R9's literals, and the completion's code and length follow from `tmo` and the
kind. -/
theorem restoreStepsAndCompletion : Obligations.RestoreStepsAndCompletion := by
  intro s u rest hstd
  refine ⟨fun h hk => ?_, fun h hk => ?_, fun h hm => ?_, fun h hm ht => ?_, fun h hk ht => ?_, fun h hk ht => ?_⟩
  · rw [step_rstCr (.inl hk) h, ← cwCfg_rd hstd, ← hk]
    rfl
  · rw [step_rstCr (.inr hk) h, ← cwCfg_wr hstd, ← hk]
    rfl
  · rw [step_rstSsr hm h, ← hstd.ssDeassert]
    rfl
  · exact step_rstIer_completes hstd hm h (by rw [ht]; rfl) (completedLen_timedOut ht)
  · exact step_rstIer_completes hstd (.inl hk) h (by rw [ht]; rfl) (completedLen_rd hstd hk ht)
  · exact step_rstIer_completes hstd (.inr hk) h (by rw [ht]; rfl) (completedLen_wr hk)

end Sys2Proof.Machine

end

section

/-! One scripted step at the first and at the last label of a data exchange (R153 to R157). -/

namespace Sys2Proof.Machine

section

variable {s : State} {u : Draw} {rest : List Input} (hd : s.InData)
include hd

theorem step_datDtr (h : s.At .datDtr u rest) :
    step s = .next (xDtr (dataByte s) .datCr { s with inputs := rest }) := by
  rw [step_dataLabel h hd rfl]
  simp only [labelStep, h.1]
  rfl

theorem step_datDrr (h : s.At .datDrr u rest) : step s = .next (datDrr u { s with inputs := rest }) := by
  rw [step_dataLabel h hd rfl]
  simp only [labelStep, h.1]

end

/-! ### The byte sent -/

/-- R153: a read sends the dummy byte. -/
theorem dataByte_rd {s : State} (hstd : s.params.Standard) (hk : s.kind = .rd) : dataByte s = 0x00#8 := by
  simp [dataByte, hk, hstd.dummyByte]

/-- R154: a write sends the byte at `idx`. -/
theorem dataByte_wr {s : State} (hk : s.kind = .wr) : dataByte s = Memory.read s.cb s.idx.toNat := by
  simp [dataByte, hk]

/-- Settles O38: the byte written is the kind's data byte. -/
theorem dataByteIsPushed : Obligations.DataByteIsPushed := by
  intro s u rest b h hd hstd hrd hwr
  have hb : b = dataByte s := by
    rcases hd.moves with hk | hk
    · rw [hrd hk, dataByte_rd hstd hk]
    · rw [hwr hk, dataByte_wr hk]
  rw [step_datDtr hd h, hb]
  rfl

/-! ### The byte received -/

section

variable (u : Draw) (s : State)

/-- R155, R156: the answer is stored at `CB[idx]` for a read, nowhere for a write. -/
theorem datDrr_cb : (datDrr u s).cb = if s.kind = .rd then Memory.write s.cb s.idx.toNat u.drr else s.cb := by
  rw [datDrr_frame]

/-- R157: after the last data byte the restore begins. -/
theorem datDrr_position_last (h : s.idx = lastIdx s.kind) :
    (datDrr u s).step = .rstCr ∧ (datDrr u s).idx = s.idx := by
  simp [datDrr, storeReceived_eq, nextDataByte, h]

/-- R157: after any other data byte the next exchange begins, one position down. -/
theorem datDrr_position_next (h : s.idx ≠ lastIdx s.kind) :
    (datDrr u s).step = .datDtr ∧ (datDrr u s).idx = s.idx - 1#3 := by
  simp [datDrr, storeReceived_eq, nextDataByte, h]

end

/-- R157: the last position of each kind that moves a word. -/
theorem State.Moves.idx_eq_lastIdx_iff {s : State} (hm : s.Moves) :
    s.idx = lastIdx s.kind ↔ (s.kind = .rd ∧ s.idx = 0#3) ∨ (s.kind = .wr ∧ s.idx = 2#3) := by
  rcases hm with hk | hk <;> simp [hk, lastIdx]

/-- R26, R157: from a position that is not the last, `idx` goes down by one without wrapping. -/
theorem State.InData.idx_pred {s : State} (hd : s.InData) (h : s.idx ≠ lastIdx s.kind) :
    (s.idx - 1#3).toNat + 1 = s.idx.toNat := by
  have hpos : s.idx ≠ 0#3 := by
    rcases hd with ⟨hk, -⟩ | ⟨-, hge, -⟩
    · simpa [hk, lastIdx] using h
    · bv_omega
  bv_omega

/-- Settles O39: what `DAT_DRR` writes, by the kind, and where it goes, by whether the position is the kind's last. -/
theorem dataByteIsReceived : Obligations.DataByteIsReceived := by
  intro s u rest h hd hwf
  refine ⟨_, step_datDrr hd h, ?_, fun hk k => ?_, fun hk => ?_, fun hlast => ?_, fun hlast => ?_⟩
  · rw [datDrr_frame]
    rfl
  · rw [datDrr_cb, if_pos hk, Memory.read_write _ hwf]
    exact if_congr eq_comm rfl rfl
  · rw [datDrr_cb, if_neg (by simp [hk])]
  · exact datDrr_position_last u { s with inputs := rest } (hd.moves.idx_eq_lastIdx_iff.2 hlast)
  · have hnext : s.idx ≠ lastIdx s.kind := fun e => hlast (hd.moves.idx_eq_lastIdx_iff.1 e)
    obtain ⟨hstep, hidx⟩ := datDrr_position_next u { s with inputs := rest } hnext
    exact ⟨hstep, by rw [hidx]; exact hd.idx_pred hnext⟩

end Sys2Proof.Machine

end

section

/-! The interrupt-enable step of `EN` and `DIS` (R172), and the Receive-Interrupt Handler from the arbitration that
chooses it to its acknowledge (R144, R177 to R181). -/

namespace Sys2Proof.Machine

/-- R167: at a label whose step is `f`, where the rules speak, a scripted step is `f`. -/
theorem step_label_eq {s : State} {l : Label} {u : Draw} {rest : List Input} {f : State → State}
    (h : s.At l u rest) (hr : s.hasRule = true)
    (hf : ∀ t : State, labelStep u { t with step := l } = f { t with step := l }) :
    step s = .next (f { s with inputs := rest }) := by
  obtain ⟨rfl, hi⟩ := h
  have hlabel : microStep u { s with inputs := rest } = .next (labelStep u { s with inputs := rest }) :=
    microStep_of_hasRule hr
  rw [step_tick hi, hlabel]
  exact congrArg _ (hf { s with inputs := rest })

/-! ### The interrupt-enable step -/

/-- R170, R172. -/
theorem ienWord_en {p : Params} (hstd : p.Standard) : ienWord p .en = 0x00000010#32 := ierOn_eq hstd

/-- R171, R172. -/
theorem ienWord_dis (p : Params) : ienWord p .dis = 0x00000000#32 := rfl

theorem step_ienIer {s : State} {u : Draw} {rest : List Input} (hk : movesWord s.kind = false)
    (h : s.At .ienIer u rest) : step s = .next (ienIer { s with inputs := rest }) :=
  step_label_eq h (by simp [State.hasRule, h.1, hk]) fun _ => rfl

/-- Settles O41: the step of `IEN_IER`, with the word R9's literals give for the kind. -/
theorem interruptEnableStep : Obligations.InterruptEnableStep := by
  intro s u rest v hstd h hv
  obtain ⟨hk, hword⟩ : movesWord s.kind = false ∧ ienWord s.params s.kind = v := by
    rcases hv with ⟨hkind, rfl⟩ | ⟨hkind, rfl⟩ <;> rw [hkind]
    · exact ⟨rfl, ienWord_en hstd⟩
    · exact ⟨rfl, ienWord_dis s.params⟩
  rw [step_ienIer hk h, ← hword]
  rfl

/-! ### The handler -/

/-- R22, R51: at `IDLE` and at the handler's labels the rules speak whatever the command is. -/
theorem hasRule_of_owner_ne_txn {s : State} (h : s.step.owner ≠ .txn) : s.hasRule = true := by
  unfold State.hasRule
  cases hl : s.step <;> simp [hl, Label.owner] at h ⊢

/-- R144: an interrupt that no waiting command is put before is taken. -/
theorem idleStep_of_irq {s : State} {u : Draw} (hirq : u.irq = true)
    (hwait : s.busy = true → commandWins s.params.arbOrder u = false) : idleStep u s = s.enterHandler := by
  cases hb : s.busy with
  | false => simp [idleStep, hb, hirq]
  | true => simp [idleStep, hb, hwait hb]

/-- At `IDLE` or at a handler's label whose step is `f`, a scripted step is `f`. -/
theorem step_notTxn_eq {s : State} {l : Label} {u : Draw} {rest : List Input} {f : State → State}
    (h : s.At l u rest) (hl : l.owner ≠ .txn)
    (hf : ∀ t : State, labelStep u { t with step := l } = f { t with step := l }) :
    step s = .next (f { s with inputs := rest }) :=
  step_label_eq h (hasRule_of_owner_ne_txn (h.1 ▸ hl)) hf

section

variable {s : State} {u : Draw} {rest : List Input}

theorem step_idle (h : s.At .idle u rest) : step s = .next (idleStep u { s with inputs := rest }) :=
  step_notTxn_eq h (by decide) fun _ => rfl

theorem step_irqDis (h : s.At .irqDis u rest) : step s = .next (irqDis { s with inputs := rest }) :=
  step_notTxn_eq h (by decide) fun _ => rfl

theorem step_irqDrr (h : s.At .irqDrr u rest) : step s = .next (irqDrr u { s with inputs := rest }) :=
  step_notTxn_eq h (by decide) fun _ => rfl

theorem step_irqEn (h : s.At .irqEn u rest) : step s = .next (irqEn { s with inputs := rest }) :=
  step_notTxn_eq h (by decide) fun _ => rfl

theorem step_irqAck (h : s.At .irqAck u rest) : step s = .next (irqAck { s with inputs := rest }) :=
  step_notTxn_eq h (by decide) fun _ => rfl

/-- R144, R202: the step of `IDLE` that enters the handler. -/
theorem step_idle_takesIrq (h : s.At .idle u rest) (hirq : u.irq = true)
    (hwait : s.busy = true → commandWins s.params.arbOrder u = false) :
    step s = .next (State.enterHandler { s with inputs := rest }) :=
  (step_idle h).trans (congrArg _ (idleStep_of_irq hirq hwait))

end

/-- R144: which settings of `ARB_ORDER` and of the free choice put the interrupt before a waiting command. -/
theorem commandWins_eq_false {a : ArbOrder} {u : Draw} (hirq : u.irq = true)
    (h : a = .irqFirst ∨ (a = .any ∧ u.pick = false)) : commandWins a u = false := by
  rcases h with rfl | ⟨rfl, hpick⟩
  · simp [commandWins, hirq]
  · simp [commandWins, hirq, hpick]

/-- R181: the handler from its entry to `IDLE`: three accesses and the acknowledge in four micro-steps. -/
theorem run_handler {s : State} {d1 d2 d3 d4 : Draw} {rest : List Input}
    (h : s.At .irqDis d1 (.tick d2 :: .tick d3 :: .tick d4 :: rest)) :
    Sys2Proof.core.run 4 s = .next { s with inputs := rest, step := .idle, ctl := { s.ctl with drr := d2.drr, ier := ierOn s.params }, trace := [Event.irqAck, .w32 .ier (ierOn s.params), .r8 .drr d2.drr, .w32 .ier ierOff] ++ s.trace } :=
  calc Sys2Proof.core.run 4 s
    _ = Sys2Proof.core.run 3 (irqDis { s with inputs := .tick d2 :: .tick d3 :: .tick d4 :: rest }) :=
      core_run_next (step_irqDis h) 3
    _ = Sys2Proof.core.run 2 (irqDrr d2 (irqDis { s with inputs := .tick d3 :: .tick d4 :: rest })) :=
      core_run_next (step_irqDrr ⟨rfl, rfl⟩) 2
    _ = Sys2Proof.core.run 1 (irqEn (irqDrr d2 (irqDis { s with inputs := .tick d4 :: rest }))) :=
      core_run_next (step_irqEn ⟨rfl, rfl⟩) 1
    _ = .next (irqAck (irqEn (irqDrr d2 (irqDis { s with inputs := rest })))) :=
      core_run_next (step_irqAck ⟨rfl, rfl⟩) 0

/-- Settles O42: the arbitration enters the handler, and the handler runs to `IDLE` with R9's word for `IER`. -/
theorem handlerRunDrainsOneByte : Obligations.HandlerRunDrainsOneByte := by
  intro s u d1 d2 d3 d4 rest hstd hidle hi hirq harb
  have henter := step_idle_takesIrq ⟨hidle, hi⟩ hirq fun hb => commandWins_eq_false hirq (harb hb)
  rw [core_run_next henter, run_handler ⟨rfl, rfl⟩, ← ierOn_eq hstd, ← hidle]
  rfl

end Sys2Proof.Machine

end

section

/-! The host event `Submit` as one step: which string it refuses and with which code, and what it writes (R141 to R143,
R191, R192, R194). -/

namespace Sys2Proof.Machine

/-- R15: a `Submit` that stands first is the step. -/
theorem step_submit {s : State} {bs : List Byte} {rest : List Input} (h : s.inputs = .submit bs :: rest) :
    step s = .next (submit bs { s with inputs := rest }) := by
  rw [step_of_not_command (by simp [h]), advance, h]

/-! ### One equation for each branch of `submit` -/

section

variable {s : State} {bs : List Byte}

/-- R194. -/
theorem submit_of_busy (hb : s.busy = true) : submit bs s = s.raise .concurrencyViolation := by simp [submit, hb]

/-- R142, R143. -/
theorem submit_of_decode_ok {i : Instr} (hb : s.busy = false) (hd : decode s.params bs = .ok i) :
    submit bs s = (s.loadCommand bs).accept i.kind := by simp [submit, hb, hd]

/-- R192. -/
theorem submit_of_overlong (hb : s.busy = false) (hlen : s.params.cbSize < bs.length) :
    submit bs s = { s with status := .bufferFault }.raise .bufferFault := by
  simp [submit, hb, (decode_tooLong_iff s.params bs).2 hlen]

/-- R191: every refusal but the one of an overlong string loads the command and is a `ProtocolFault`. -/
theorem submit_of_malformed {r : Reject} (hb : s.busy = false) (hd : decode s.params bs = .error r)
    (hr : r ≠ .tooLong) :
    submit bs s = { s.loadCommand bs with status := .protocolFault }.raise .protocolFault := by
  cases r with
  | tooLong => exact absurd rfl hr
  | empty | unknownOpcode | short => simp [submit, hb, hd]

end

/-! ### The malformed strings (R97, R103) -/

/-- R97 b: the empty string has no opcode. -/
theorem decode_nil (p : Params) : decode p [] = .error .empty := by simp [decode]

/-- R103: a non-empty string that fits the buffer is decoded by its first byte. -/
theorem decode_cons {p : Params} {op : Byte} {r : List Byte} (h : (op :: r).length ≤ p.cbSize) :
    decode p (op :: r) = decodeAfterOpcode p op r := by
  simp only [decode, Nat.not_lt.2 h, ↓reduceIte]

section

variable {p : Params} (hstd : p.Standard)
include hstd

/-- R97 a. -/
theorem decodeAfterOpcode_unknown {op : Byte} (r : List Byte) (he : op ≠ 0x65#8) (hd : op ≠ 0x64#8)
    (hr : op ≠ 0x72#8) (hw : op ≠ 0x77#8) : decodeAfterOpcode p op r = .error .unknownOpcode := by
  simp only [decodeAfterOpcode, hstd.opEn, hstd.opDis, hstd.opRd, hstd.opWr, he, hd, hr, hw, ↓reduceIte]

/-- R97 b: a ReadWord without its address. -/
theorem decodeAfterOpcode_rd_short : decodeAfterOpcode p 0x72#8 [] = .error .short := by
  simp [decodeAfterOpcode, hstd.opEn, hstd.opDis, hstd.opRd]

/-- R97 b: a WriteWord without its address or with fewer than four payload bytes. -/
theorem decodeAfterOpcode_wr_short {r : List Byte} (h : r.length < 5) :
    decodeAfterOpcode p 0x77#8 r = .error .short := by
  simp only [decodeAfterOpcode, hstd.opEn, hstd.opDis, hstd.opRd, hstd.opWr, BitVec.reduceEq, ↓reduceIte]
  split
  · simp only [List.length_cons] at h
    omega
  · rfl

end

/-! ### The statements -/

/-- Settles O26: each malformed form is refused by its own name, none of them `tooLong`, so the command is loaded. -/
theorem malformedSubmitIsLoadedAndFaulted : Obligations.MalformedSubmitIsLoadedAndFaulted := by
  intro s bytes rest hi hb hstd hwf hlen hform
  rw [← hstd.cbSize] at hlen
  obtain ⟨r, hd, hr⟩ : ∃ r, decode s.params bytes = .error r ∧ r ≠ .tooLong := by
    rcases hform with rfl | ⟨op, r, rfl, hop⟩ | rfl | ⟨r, rfl, hshort⟩
    · exact ⟨_, decode_nil s.params, by decide⟩
    · obtain ⟨he, hd, hr, hw⟩ := hop
      exact ⟨_, (decode_cons hlen).trans (decodeAfterOpcode_unknown hstd r he hd hr hw), by decide⟩
    · exact ⟨_, (decode_cons hlen).trans (decodeAfterOpcode_rd_short hstd), by decide⟩
    · exact ⟨_, (decode_cons hlen).trans (decodeAfterOpcode_wr_short hstd hshort), by decide⟩
  have hsubmit := submit_of_malformed (s := { s with inputs := rest }) hb hd hr
  exact ⟨_, (step_submit hi).trans (congrArg _ hsubmit), rfl, read_loadCommand hwf bytes⟩

/-- Settles O24: `busy` alone decides the refusal, and a `Submit` with `busy` 0 is accepted at any label, the handler's
among them. -/
theorem submitWhileBusyWritesNothing : Obligations.SubmitWhileBusyWritesNothing := by
  intro s bytes rest hi
  refine ⟨fun hb => ?_, fun i _ hb hd => ?_⟩
  · exact (step_submit hi).trans (congrArg _ (submit_of_busy (s := { s with inputs := rest }) hb))
  · have hsubmit := submit_of_decode_ok (s := { s with inputs := rest }) hb hd
    exact ⟨_, (step_submit hi).trans (congrArg _ hsubmit), rfl, rfl⟩

/-- Settles O25: a string longer than the buffer is not loaded, and a `ReadBack` is a step in every state. -/
theorem overlongSubmitWritesOnlyStatus : Obligations.OverlongSubmitWritesOnlyStatus := by
  refine ⟨fun s bytes rest hi hb hstd hlen => ?_, fun s rest hi => ⟨_, step_readBack hi⟩⟩
  rw [← hstd.cbSize] at hlen
  exact (step_submit hi).trans (congrArg _ (submit_of_overlong (s := { s with inputs := rest }) hb hlen))

end Sys2Proof.Machine

end

section

/-! The `Reset` event (R220, R221). -/

namespace Sys2Proof.Machine

/-- R29, R50: the empty Command Buffer, the one a `Reset` leaves, holds 0x00 at every position. -/
theorem Memory.read_nil (k : Nat) : Memory.read [] k = 0x00#8 := rfl

/-- Settles O2: the step is `resetBlock`, whose free draws are the witnesses for `kind`, `addr` and `idx`. -/
theorem resetEventAbandonsWhateverRuns : Obligations.ResetEventAbandonsWhateverRuns := fun s _ hi =>
  ⟨kindOfBits (Config.freeKind s.drawn), Config.freeAddr s.drawn, Config.freeIdx s.drawn, step_reset hi, Memory.read_nil⟩

end Sys2Proof.Machine

end

section

/-! The decoder and the encoder undo each other (R90 to R97, R103), and the decoder's refusals by name. -/

namespace Sys2Proof.Machine

theorem encode_length (p : Params) (i : Instr) : (encode p i).length = i.length := by
  cases i with
  | en t => exact (Laws.EncodeLength.en t p).1
  | dis t => exact (Laws.EncodeLength.dis t p).1
  | rd a t => exact (Laws.EncodeLength.rd a t p).1
  | wr a p0 p1 p2 p3 t => exact (Laws.EncodeLength.wr a p0 p1 p2 p3 t p).1

/-- R103: where the opcode decides for a command, the string is that command's encoding. -/
theorem encode_of_decodeAfterOpcode {p : Params} {op : Byte} {rest : List Byte} {i : Instr}
    (h : decodeAfterOpcode p op rest = .ok i) : encode p i = op :: rest := by
  unfold decodeAfterOpcode at h
  split at h
  · rename_i hop; cases h; rw [hop]; rfl
  · split at h
    · rename_i hop; cases h; rw [hop]; rfl
    · split at h
      · rename_i hop
        split at h <;> cases h
        rw [hop]; rfl
      · split at h
        · rename_i hop
          split at h <;> cases h
          rw [hop]; rfl
        · cases h

/-- R103: what is decoded is the encoding of the command it is decoded to. -/
theorem encode_of_decode {p : Params} {bytes : List Byte} {i : Instr} (h : decode p bytes = .ok i) :
    encode p i = bytes := by
  have hlen := length_le_of_decode h (by simp)
  cases bytes with
  | nil => rw [decode_nil] at h; cases h
  | cons op rest => exact encode_of_decodeAfterOpcode ((decode_cons hlen).symm.trans h)

/-- R94: with the opcodes told apart, a command's opcode decides for that command. -/
theorem decode_encode {p : Params} (hop : [p.opEn, p.opDis, p.opRd, p.opWr].Nodup) {i : Instr} (hwf : i.WellFormed p) :
    decode p (encode p i) = .ok i := by
  obtain ⟨⟨hed, her, hew⟩, ⟨hdr, hdw⟩, hrw⟩ : (p.opEn ≠ p.opDis ∧ p.opEn ≠ p.opRd ∧ p.opEn ≠ p.opWr) ∧
      (p.opDis ≠ p.opRd ∧ p.opDis ≠ p.opWr) ∧ p.opRd ≠ p.opWr := by simpa using hop
  have hlen : (encode p i).length ≤ p.cbSize := (encode_length p i).trans_le hwf
  cases i with
  | en t => exact (decode_cons hlen).trans (by simp [decodeAfterOpcode])
  | dis t => exact (decode_cons hlen).trans (by simp [decodeAfterOpcode, hed.symm])
  | rd a t => exact (decode_cons hlen).trans (by simp [decodeAfterOpcode, her.symm, hdr.symm])
  | wr a p0 p1 p2 p3 t =>
    exact (decode_cons hlen).trans (by simp [decodeAfterOpcode, hew.symm, hdw.symm, hrw.symm])

/-- Settles O3: an accepted string fits the buffer and is its command's encoding, and a well-formed command's encoding
is decoded to it. -/
theorem decodeAcceptsExactlyTheEncodings : Obligations.DecodeAcceptsExactlyTheEncodings := by
  intro p bytes i hop
  constructor
  · intro h
    have henc := encode_of_decode h
    refine ⟨?_, henc⟩
    calc i.length
      _ = (encode p i).length := (encode_length p i).symm
      _ = bytes.length := congrArg List.length henc
      _ ≤ p.cbSize := length_le_of_decode h (by simp)
  · rintro ⟨hwf, rfl⟩
    exact decode_encode hop hwf

/-- Settles O4: the length is tested first, then the first byte, then what must follow it. -/
theorem decodeRefusesByName : Obligations.DecodeRefusesByName := by
  intro p hstd
  refine ⟨fun bytes h => (decode_tooLong_iff p bytes).2 (hstd.cbSize ▸ h), decode_nil p,
    fun op r hlen he hd hr hw => ?_, ?_, fun r hlen => ?_⟩
  · rw [decode_cons (by rw [hstd.cbSize, List.length_cons]; omega)]
    exact decodeAfterOpcode_unknown hstd r he hd hr hw
  · rw [decode_cons (by rw [hstd.cbSize]; decide)]
    exact decodeAfterOpcode_rd_short hstd
  · rw [decode_cons (by rw [hstd.cbSize, List.length_cons]; omega)]
    exact decodeAfterOpcode_wr_short hstd hlen

/-- Settles O5: each word but the last is an encoding by R9's opcodes; upper-case `R` is none of the opcodes. -/
theorem wordsOfEachFormatDecode : Obligations.WordsOfEachFormatDecode := by
  intro p hstd
  have word : ∀ (i : Instr) (bytes : List Byte), i.length ≤ 128 → encode p i = bytes → decode p bytes = .ok i :=
    fun i bytes hlen he => he ▸ decode_encode hstd.opcodes_nodup (hstd.cbSize ▸ hlen : i.length ≤ p.cbSize)
  refine ⟨word _ _ (by decide) ?_, word _ _ (by decide) ?_, word _ _ (by decide) ?_, word _ _ (by decide) ?_,
    word _ _ (by decide) ?_, ?_⟩
  · rw [encode, hstd.opEn]
  · rw [encode, hstd.opDis]
  · rw [encode, hstd.opRd]
  · rw [encode, hstd.opWr]
  · rw [encode, hstd.opRd]
  · rw [decode_cons (by rw [hstd.cbSize]; decide)]
    exact decodeAfterOpcode_unknown hstd _ (by decide) (by decide) (by decide) (by decide)

end Sys2Proof.Machine

end

section

/-! Where a micro-step is defined, and that it always leads on (R51, R167). -/

namespace Sys2Proof.Machine

/-! ### Where the rules speak -/

theorem movesWord_iff {s : State} : movesWord s.kind = true ↔ s.Moves := by
  cases hk : s.kind <;> simp [movesWord, State.Moves, hk]

theorem idxInRange_iff {s : State} : idxInRange s.params s.kind s.idx = true ↔ s.InData := by
  cases hk : s.kind <;> simp [idxInRange, State.InData, hk]

/-- R51: the states no rule speaks of, by the label. -/
theorem hasRule_eq_false_iff {s : State} : s.hasRule = false ↔
    (s.step = .ienIer ∧ s.Moves) ∨ (s.step.isData = true ∧ ¬ s.InData) ∨
    (s.step.owner = .txn ∧ s.step ≠ .ienIer ∧ s.step.isData = false ∧ ¬ s.Moves) := by
  rw [← movesWord_iff, ← idxInRange_iff]
  unfold State.hasRule
  cases s.step <;> simp [Label.isData, Label.owner]

theorem microStep_eq_fault_iff {u : Draw} {s : State} : microStep u s = .fault .noRule ↔ s.hasRule = false := by
  cases h : s.hasRule <;> simp [microStep, h]

/-- Settles O9: the one fault is that of a state no rule speaks of. -/
theorem microStepStopsExactlyWhereNoRuleSpeaks : Obligations.MicroStepStopsExactlyWhereNoRuleSpeaks := by
  intro s u rest hi
  rw [step_tick hi, microStep_eq_fault_iff]
  exact hasRule_eq_false_iff (s := { s with inputs := rest })

/-! ### No state within the invariant is stopped -/

theorem hasRule_of_positionOk {s : State} (h : s.positionOk = true) : s.hasRule = true := by
  unfold State.positionOk at h
  unfold State.hasRule
  cases hl : s.step <;> simp only [hl, Bool.and_eq_true] at h ⊢ <;> simp [h]

theorem exists_advance_of_inv {s : State} (h : s.Inv) : ∃ t, advance s = .next t := by
  have hrule : ∀ is n, { s with inputs := is, drawn := n }.hasRule = true := fun _ _ => hasRule_of_positionOk h.1
  rcases advance_cases s with ⟨bs, rest, -, e⟩ | ⟨rest, -, e⟩ | ⟨rest, -, e⟩ | ⟨u, rest, -, e⟩ | ⟨-, e⟩
  · exact ⟨_, e⟩
  · exact ⟨_, e⟩
  · exact ⟨_, e⟩
  · exact ⟨_, e.trans (microStep_of_hasRule (hrule rest s.drawn))⟩
  · exact ⟨_, e.trans (microStep_of_hasRule (hrule s.inputs (s.drawn + 1)))⟩

/-- A meaning answers a next state in every state (R104). -/
theorem exists_exec (i : Instr) (s : State) : ∃ t, exec i s = .next t := ⟨_, exec_eq_runCommand i s⟩

/-- Settles O13: a program line answers a next state in every state, and a step of R15 does within the invariant. -/
theorem machineNeverStops : Obligations.MachineNeverStops := by
  intro s h
  unfold step
  split
  · split
    · exact exists_exec _ _
    · exact ⟨_, rfl⟩
  · exact exists_advance_of_inv h

/-! ### No label is stuck -/

/-- R123, R124: a poll iteration goes on to another label or counts its read. -/
theorem pollOnce_moves (passes : Bool) (bound : BitVec 14) {l : Label} {s : State} (hl : l ≠ s.step)
    (hr : .rstCr ≠ s.step) :
    (pollOnce passes bound l s).step ≠ s.step ∨ (pollOnce passes bound l s).poll ≠ s.poll := by
  rcases pollOnce_cases passes bound l s with ⟨-, e⟩ | ⟨-, -, -, e⟩ | ⟨-, -, -, e⟩ | ⟨-, -, e⟩ <;> rw [e]
  · exact .inl hl
  · exact .inl hr
  · exact .inl hl
  · exact .inr (by bv_omega)

theorem datDrr_step_ne (u : Draw) (s : State) : (datDrr u s).step ≠ .datDrr := by
  by_cases h : s.idx = lastIdx s.kind
  · simp [(datDrr_position_last u s h).1]
  · simp [(datDrr_position_next u s h).1]

/-- R167: outside `IDLE` a label's step changes the label or the poll count. -/
theorem labelStep_moves (u : Draw) {s : State} (h : s.step ≠ .idle) :
    (labelStep u s).step ≠ s.step ∨ (labelStep u s).poll ≠ s.poll := by
  unfold labelStep
  cases hl : s.step with
  | idle => exact absurd hl h
  | adrPtx | adrPrx | datPtx | datPrx =>
    dsimp only
    rw [← hl]
    exact pollOnce_moves _ _ (s := s.memRead32 .sr u.sr) (by simp [hl]) (by simp [hl])
  | datDrr => exact .inl (datDrr_step_ne u s)
  | _ => exact .inl nofun

/-- Settles O14: the step is that of the label, which moves the block on. -/
theorem noLabelIsStuck : Obligations.NoLabelIsStuck := by
  intro s u rest h hi hl
  exact ⟨_, (step_tick hi).trans (microStep_of_hasRule (hasRule_of_positionOk (s := { s with inputs := rest }) h.1)),
    labelStep_moves u (s := { s with inputs := rest }) hl⟩

end Sys2Proof.Machine

end

section

/-! What a micro-step leaves unchanged, and which of its inputs it depends on (R25, R41, R175, R176). -/

namespace Sys2Proof.Machine

/-! ### What is left unchanged -/

/-- R25: no label writes the latched command; and the model's own fields are the step's, not the label's. -/
theorem labelStep_latched (u : Draw) (s : State) :
    (labelStep u s).kind = s.kind ∧ (labelStep u s).addr = s.addr ∧ (labelStep u s).inputs = s.inputs ∧
    (labelStep u s).drawn = s.drawn := by
  unfold labelStep
  cases s.step with
  | idle => dsimp only; rw [idleStep_frame]; exact ⟨rfl, rfl, rfl, rfl⟩
  | adrPtx | adrPrx | datPtx | datPrx => dsimp only [xPtx, xPrx]; rw [pollOnce_frame]; exact ⟨rfl, rfl, rfl, rfl⟩
  | datDrr => dsimp only; rw [datDrr_frame]; exact ⟨rfl, rfl, rfl, rfl⟩
  | _ => exact ⟨rfl, rfl, rfl, rfl⟩

/-- R24, R31: `status` and `busy` are written at the two completing labels only. -/
theorem labelStep_status_busy (u : Draw) {s : State} (hr : s.step ≠ .rstIer) (hi : s.step ≠ .ienIer) :
    (labelStep u s).status = s.status ∧ (labelStep u s).busy = s.busy := by
  unfold labelStep
  cases hl : s.step with
  | idle => dsimp only; rw [idleStep_frame]; exact ⟨rfl, rfl⟩
  | adrPtx | adrPrx | datPtx | datPrx => dsimp only [xPtx, xPrx]; rw [pollOnce_frame]; exact ⟨rfl, rfl⟩
  | datDrr => dsimp only; rw [datDrr_frame]; exact ⟨rfl, rfl⟩
  | rstIer => exact absurd hl hr
  | ienIer => exact absurd hl hi
  | _ => exact ⟨rfl, rfl⟩

/-- Settles O20: the label's step keeps what its frame lemmas say, and takes the one input. -/
theorem microStepFrame : Obligations.MicroStepFrame := by
  intro s t u rest hi h
  rw [step_tick hi] at h
  obtain ⟨-, rfl⟩ := microStep_next h
  obtain ⟨hkind, haddr, hinputs, hdrawn⟩ := labelStep_latched u { s with inputs := rest }
  have hparams := (labelStep_emits u { s with inputs := rest }).params
  refine ⟨hkind, haddr, hparams, hinputs, hdrawn, fun hn => ?_, fun hn => ?_, fun ⟨hr, hien⟩ =>
    labelStep_status_busy u (s := { s with inputs := rest }) hr hien⟩
  · rw [labelStep_cb, if_neg (by tauto)]
  · rw [labelStep_cbLen]
    split
    · rename_i hl
      simp [completedLen, hn.resolve_left (not_not.2 hl)]
    · rfl

/-- R175: a handler label writes `step`, the trace and `IER` or `DRR` only. -/
theorem labelStep_handler_frame (u : Draw) {s : State} (h : s.step.owner = .irq) :
    labelStep u s = { s with step := (labelStep u s).step, ctl := (labelStep u s).ctl, trace := (labelStep u s).trace } ∧
    (labelStep u s).ctl = { s.ctl with ier := (labelStep u s).ctl.ier, drr := (labelStep u s).ctl.drr } := by
  unfold labelStep
  rcases (Label.owner_eq_irq_iff _).1 h with hl | hl | hl | hl <;> rw [hl] <;> exact ⟨rfl, rfl⟩

/-- Settles O21: the frame of the four handler labels. -/
theorem handlerStepFrame : Obligations.HandlerStepFrame := by
  intro s t u rest hi howner h
  rw [step_tick hi] at h
  obtain ⟨-, rfl⟩ := microStep_next h
  obtain ⟨hframe, hctl⟩ := labelStep_handler_frame u (s := { s with inputs := rest }) howner
  refine ⟨hframe, ?_, ?_, ?_, ?_⟩ <;> rw [hctl]

/-! ### What a step depends on -/

/-- R176: outside `IDLE` a label's step depends on the read answers only. -/
theorem labelStep_congr_answers {u v : Draw} {s : State} (hl : s.step ≠ .idle) (hsr : u.sr = v.sr) (hdrr : u.drr = v.drr) :
    labelStep u s = labelStep v s := by
  unfold labelStep
  cases h : s.step with
  | idle => exact absurd h hl
  | adrPtx | adrPrx | datPtx | datPrx => simp only [xPtx, xPrx, hsr]
  | adrDrr | datDrr | irqDrr => simp only [adrDrr, datDrr, irqDrr, hdrr]
  | _ => rfl

/-- Settles O22: a micro-step outside `IDLE` is the label's, which depends on the two answers only. -/
theorem interruptIsIgnoredOutsideIdle : Obligations.InterruptIsIgnoredOutsideIdle := by
  intro s u v rest hl hsr hdrr
  rw [step_tick (u := u) (rest := rest) rfl, step_tick (u := v) (rest := rest) rfl]
  simp only [microStep, labelStep_congr_answers (s := { s with inputs := rest }) hl hsr hdrr]

/-- `t` and `r` differ in the trace and in the record of the Status register only. -/
def SameButStatus (t r : State) : Prop :=
  t = { r with ctl := t.ctl, trace := t.trace } ∧ t.ctl = { r.ctl with sr := t.ctl.sr }

/-- A poll iteration neither tests nor writes what the accesses before it have recorded. -/
theorem pollOnce_observed (passes : Bool) (bound : BitVec 14) (l : Label) (s : State) (c : Controller) (es : List Event) :
    pollOnce passes bound l { s with ctl := c, trace := es } =
      { pollOnce passes bound l s with ctl := c, trace := es } := by
  unfold pollOnce timeout
  split
  · rfl
  · split
    · cases s.params.timeoutMode <;> rfl
    · rfl

theorem pollOnce_sameButStatus (passes : Bool) (bound : BitVec 14) (l : Label) (s : State) (v w : Word) :
    SameButStatus (pollOnce passes bound l (s.memRead32 .sr v)) (pollOnce passes bound l (s.memRead32 .sr w)) := by
  have e : ∀ x, pollOnce passes bound l (s.memRead32 .sr x) =
      { pollOnce passes bound l s with ctl := { s.ctl with sr := x }, trace := .r32 .sr x :: s.trace } :=
    fun x => pollOnce_observed passes bound l s _ _
  rw [e v, e w]
  exact ⟨rfl, rfl⟩

/-- R41: a label's step depends on Status bits 0 and 2 only, but for the record of what was read. -/
theorem labelStep_sameButStatus {u v : Draw} {s : State} (hstd : s.params.Standard) (hirq : u.irq = v.irq)
    (hpick : u.pick = v.pick) (hdrr : u.drr = v.drr) (hrx : u.sr.getLsbD 0 = v.sr.getLsbD 0)
    (htx : u.sr.getLsbD 2 = v.sr.getLsbD 2) : SameButStatus (labelStep u s) (labelStep v s) := by
  unfold labelStep
  cases s.step with
  | idle => simp only [idleStep, commandWins, hirq, hpick]; exact ⟨rfl, rfl⟩
  | adrPtx | datPtx =>
    simp only [xPtx, srTxEmpty_eq hstd, htx]
    exact pollOnce_sameButStatus _ _ _ s _ _
  | adrPrx | datPrx =>
    simp only [xPrx, srRxNotEmpty_eq hstd, hrx]
    exact pollOnce_sameButStatus _ _ _ s _ _
  | adrDrr | datDrr | irqDrr => simp only [adrDrr, datDrr, irqDrr, hdrr]; exact ⟨rfl, rfl⟩
  | _ => exact ⟨rfl, rfl⟩

/-- Settles O23: a micro-step is the label's, which tests the two bits only. -/
theorem onlyTwoStatusBitsAreTested : Obligations.OnlyTwoStatusBitsAreTested := by
  intro s t r u v rest hstd hirq hpick hdrr hrx htx ht hr
  rw [step_tick (rest := rest) rfl] at ht hr
  obtain ⟨-, rfl⟩ := microStep_next ht
  obtain ⟨-, rfl⟩ := microStep_next hr
  exact labelStep_sameButStatus (s := { s with inputs := rest }) hstd hirq hpick hdrr hrx htx

end Sys2Proof.Machine

end

section

/-! The bus discipline through each part of a step (R168, R226, R227). -/

namespace Sys2Proof.Machine

/-- A poll iteration keeps the discipline where its successor and the restore ask no more of the registers. -/
theorem pollOnce_busOk (passes : Bool) (bound : BitVec 14) {l : Label} {s : State} (h : s.busOk = true)
    (hnext : { s with step := l }.busOk = true) (hrst : { s with step := .rstCr }.busOk = true) :
    (pollOnce passes bound l s).busOk = true := by
  rcases pollOnce_cases passes bound l s with ⟨-, e⟩ | ⟨-, -, -, e⟩ | ⟨-, -, -, e⟩ | ⟨-, -, e⟩ <;> rw [e]
  · exact hnext
  · exact hrst
  · exact hnext
  · exact h

theorem idleStep_busOk (u : Draw) {s : State} (hl : s.step = .idle) : (idleStep u s).busOk = true := by
  rcases idleStep_cases u s with ⟨-, -, e⟩ | ⟨-, e⟩ | ⟨-, -, e⟩ <;> rw [e]
  · cases hk : s.kind <;> simp [State.busOk, firstLabel]
  · rfl
  · simp [State.busOk, hl]

/-- R155 to R157: after a data exchange the registers are as in it, and the next asks nothing of Data-Transmit. -/
theorem datDrr_busOk (u : Draw) {s : State}
    (h : s.ctl.ier = ierOff ∧ s.ctl.ssr = s.params.ssAssert ∧ s.ctl.cr = cwRun s.params s.kind) :
    (datDrr u s).busOk = true := by
  rw [datDrr_frame]
  by_cases hlast : s.idx = lastIdx s.kind
  · rw [(datDrr_position_last u s hlast).1]
    exact decide_eq_true h
  · rw [(datDrr_position_next u s hlast).1]
    exact decide_eq_true h

/-- R167, R168: each label's step leaves the registers as its successor's discipline says. -/
theorem labelStep_busOk (u : Draw) {s : State} (h : s.busOk = true) : (labelStep u s).busOk = true := by
  unfold labelStep
  cases hl : s.step with
  | idle => exact idleStep_busOk u hl
  | adrPtx | adrPrx =>
    have hb : s.ctl.ier = ierOff ∧ s.ctl.ssr = s.params.ssAssert ∧ s.ctl.cr = cwRun s.params s.kind ∧
        s.ctl.dtr = abyte s.params s.kind s.addr := by simpa [State.busOk, hl] using h
    apply pollOnce_busOk <;> simp [State.busOk, hl, hb]
  | datPtx | datPrx =>
    have hb : s.ctl.ier = ierOff ∧ s.ctl.ssr = s.params.ssAssert ∧ s.ctl.cr = cwRun s.params s.kind ∧
        s.ctl.dtr = dataByte s := by simpa [State.busOk, hl] using h
    apply pollOnce_busOk
    · simp [State.busOk, hl, hb]
      rfl
    · simp [State.busOk, hb]
      rfl
    · simp [State.busOk, hb]
  | datDrr =>
    obtain ⟨hier, hssr, hcr, -⟩ : s.ctl.ier = ierOff ∧ s.ctl.ssr = s.params.ssAssert ∧
        s.ctl.cr = cwRun s.params s.kind ∧ s.ctl.dtr = dataByte s := by simpa [State.busOk, hl] using h
    exact datDrr_busOk u ⟨hier, hssr, hcr⟩
  | cfgIer | irqDis | irqEn | rstIer | ienIer | irqAck => simp [State.busOk, cfgIer, irqDis, irqEn, rstIer, ienIer, irqAck]
  | datDtr =>
    have hb : s.ctl.ier = ierOff ∧ s.ctl.ssr = s.params.ssAssert ∧ s.ctl.cr = cwRun s.params s.kind := by
      simpa [State.busOk, hl] using h
    simp [State.busOk, xDtr, hb]
    rfl
  | datCr =>
    have hb : s.ctl.ier = ierOff ∧ s.ctl.ssr = s.params.ssAssert ∧ s.ctl.cr = cwRun s.params s.kind ∧
        s.ctl.dtr = dataByte s := by simpa [State.busOk, hl] using h
    simp [State.busOk, xCr, hb]
    rfl
  | cfgSsr | cfgCr | adrDtr | adrSsr | adrCr | adrDrr | rstCr | rstSsr | irqDrr =>
    simp_all [State.busOk, cfgSsr, cfgCr, xDtr, adrSsr, xCr, adrDrr, rstCr, rstSsr, irqDrr]

/-- Outside the transaction's labels the discipline speaks of the label, the registers and the parameters only. -/
theorem busOk_congr_of_owner_ne_txn {s t : State} (hown : s.step.owner ≠ .txn) (hl : t.step = s.step)
    (hc : t.ctl = s.ctl) (hp : t.params = s.params) : t.busOk = s.busOk := by
  unfold State.busOk
  rw [hl, hc, hp]
  cases h : s.step <;> simp [h, Label.owner] at hown ⊢

/-- R141: a `Submit` makes no access, and loads the Command Buffer only where no transaction has a label. -/
theorem submit_busOk (bs : List Byte) {s : State} (hinv : s.Inv) (h : s.busOk = true) :
    (submit bs s).busOk = true := by
  obtain ⟨hpos, -⟩ := hinv
  have hidle : s.busy = false → ∀ t : State, t.step = s.step → t.ctl = s.ctl → t.params = s.params → t.busOk = true :=
    fun hb t hl hc hp => (busOk_congr_of_owner_ne_txn (owner_ne_txn_of_not_busy hpos hb) hl hc hp).trans h
  rcases submit_cases bs s with ⟨-, e⟩ | ⟨hb, -, e⟩ | ⟨hb, -, e⟩ | ⟨hb, i, -, e⟩ <;> rw [e]
  · exact h
  · exact hidle hb _ rfl rfl rfl
  · exact hidle hb _ rfl rfl rfl
  · exact hidle hb _ rfl rfl rfl

theorem busInv_stepClosed : StepClosed State.BusInv where
  submit bs _ := fun ⟨hinv, hbus⟩ => ⟨submit_inv bs hinv, submit_busOk bs hinv hbus⟩
  readBack _ h := h
  reset s := fun ⟨hinv, _⟩ => ⟨inv_stepClosed.reset s hinv, rfl⟩
  label u _ _ := fun ⟨hinv, hbus⟩ => ⟨labelStep_inv u hinv, labelStep_busOk u hbus⟩
  inputs _ _ h := h
  drawn _ _ h := h

/-- Settles O16: every part of a step keeps the invariant and the discipline. -/
theorem busDisciplineKeptByEveryStep : Obligations.BusDisciplineKeptByEveryStep :=
  fun _ _ h hstep => busInv_stepClosed.step h hstep

/-- Settles O11: R50's values meet R51, and R9's defaults are within what the registers' widths ask. -/
theorem invariantHoldsAfterReset : Obligations.InvariantHoldsAfterReset :=
  ⟨rfl, ⟨List.Pairwise.nil, nofun⟩, nofun, Nat.zero_le _, by decide⟩

/-- Settles O15: at `IDLE` the discipline says nothing of the registers. -/
theorem busDisciplineHoldsAfterReset : Obligations.BusDisciplineHoldsAfterReset := ⟨invariantHoldsAfterReset, rfl⟩

/-! ### The end of a transfer -/

/-- R160, R172: a transfer of a word ends at `RST_IER` only. -/
theorem step_eq_rstIer_of_ends {u : Draw} {s : State} (hr : s.hasRule = true) (hb : s.busy = true) (hm : s.Moves)
    (hend : (labelStep u s).busy = false) : s.step = .rstIer := by
  by_contra hne
  have hien : s.step ≠ .ienIer := fun hl => by simp [State.hasRule, hl, movesWord_iff.2 hm] at hr
  rw [(labelStep_status_busy u hne hien).2, hb] at hend
  cases hend

theorem cwCfg_inhibits {s : State} (hstd : s.params.Standard) (hm : s.Moves) :
    (cwCfg s.params s.kind).getLsbD 8 = true := by
  rcases hm with hk | hk
  · rw [hk, cwCfg_rd hstd]; decide
  · rw [hk, cwCfg_wr hstd]; decide

/-- Settles O17: the end is `RST_IER`, where the discipline gives Control and Slave-Select, and which writes `IER`. -/
theorem transferEndsWithTheBusIdle : Obligations.TransferEndsWithTheBusIdle := by
  intro s t u rest hstd hbus hi hb hm h hend
  rw [step_tick hi] at h
  obtain ⟨hr, rfl⟩ := microStep_next h
  have hl : s.step = .rstIer := step_eq_rstIer_of_ends (s := { s with inputs := rest }) hr hb hm hend
  obtain ⟨-, hssr, hcr⟩ : s.ctl.ier = ierOff ∧ s.ctl.ssr = s.params.ssDeassert ∧ s.ctl.cr = cwCfg s.params s.kind := by
    simpa [State.busOk, hl] using hbus.2
  have hstep : labelStep u { s with inputs := rest } = rstIer { s with inputs := rest } := by simp only [labelStep, hl]
  rw [hstep]
  refine ⟨rfl, ?_, ?_, ierOn_eq hstd⟩
  · exact (congrArg (BitVec.getLsbD · 8) hcr).trans (cwCfg_inhibits hstd hm)
  · exact hssr.trans hstd.ssDeassert

end Sys2Proof.Machine

end

section

/-! The Command Buffer as data (R29, R33, R66), the loading `Submit` (R142, R143) and the arbitration (R144). -/

namespace Sys2Proof.Machine

/-! ### The Command Buffer -/

/-- R62: a byte beyond the buffer is unlisted. -/
theorem Memory.read_of_within {size : Nat} {m : Memory} (h : Memory.within size m) {k : Nat} (hk : size ≤ k) :
    Memory.read m k = Memory.unlisted := by
  induction m with
  | nil => rfl
  | cons c m ih =>
    have hc := h c List.mem_cons_self
    rw [Memory.read, if_neg (by omega)]
    exact ih fun d hd => h d (List.mem_cons_of_mem c hd)

/-- Settles O30: below the size the contents agree by hypothesis, beyond it every byte is unlisted. -/
theorem equalBuffersAreEqualData : Obligations.EqualBuffersAreEqualData := by
  intro size m n hm hn hmin hnin h
  refine Memory.ext_of_read m hm n hn fun k => ?_
  rcases Nat.lt_or_ge k size with hk | hk
  · exact h k hk
  · rw [Memory.read_of_within hmin hk, Memory.read_of_within hnin hk]

/-- R66: a byte appended below the others. -/
theorem toNat_append_byte {n : Nat} (x : BitVec n) (b : Byte) : (x ++ b).toNat = 2 ^ 8 * x.toNat + b.toNat := by
  rw [BitVec.toNat_append, Nat.shiftLeft_eq, Nat.mul_comm, Nat.two_pow_add_eq_or_of_lt b.isLt]

/-- Settles O29: appending puts each byte below the ones before it, and `rd_data` lists the first four. -/
theorem readWordIsLeastSignificantByteFirst : Obligations.ReadWordIsLeastSignificantByteFirst := by
  intro s hstd
  constructor
  · rw [State.rdWord, toNat_append_byte, toNat_append_byte, toNat_append_byte]
    omega
  · rw [State.rdData, hstd.wordBytes]
    rfl

/-- Settles O27: the step is an accepting `Submit`, whose load is read back. -/
theorem acceptedSubmitLoadsAndLatches : Obligations.AcceptedSubmitLoadsAndLatches := by
  intro s bytes rest i hi hb hwf hd
  have hsubmit := submit_of_decode_ok (s := { s with inputs := rest }) hb hd
  exact ⟨_, (step_submit hi).trans (congrArg _ hsubmit), rfl, read_loadCommand hwf bytes⟩

/-! ### The arbitration -/

/-- R144: which levels of `irq`, settings of `ARB_ORDER` and free choices let a waiting command go. -/
theorem commandWins_eq_true {a : ArbOrder} {u : Draw}
    (h : u.irq = false ∨ a = .cmdFirst ∨ (a = .any ∧ u.pick = true)) : commandWins a u = true := by
  rcases h with h | rfl | ⟨rfl, h⟩ <;> cases hu : u.irq <;> simp_all [commandWins]

/-- R144, R145: the arbitration lets the waiting command go to its first label. -/
theorem idleStep_starts {s : State} {u : Draw} (hb : s.busy = true) (h : commandWins s.params.arbOrder u = true) :
    idleStep u s = { s with step := firstLabel s.kind } := by simp [idleStep, hb, h]

/-- Assumption 8: the quiescent block stays as it is. -/
theorem idleStep_quiescent {s : State} {u : Draw} (hb : s.busy = false) (h : u.irq = false) : idleStep u s = s := by
  simp [idleStep, hb, h]

theorem firstLabel_eq (k : Kind) : firstLabel k = if k = .en ∨ k = .dis then .ienIer else .cfgIer := by
  cases k <;> simp [firstLabel]

/-- Settles O31: one equation of `idleStep` for each case. -/
theorem idleArbitrates : Obligations.IdleArbitrates := by
  intro s u rest h
  rw [step_idle h]
  refine ⟨fun ⟨hb, hgo⟩ => ?_, fun ⟨_, hirq, hwait⟩ => ?_, fun ⟨hb, hirq⟩ => ?_, fun ⟨hb, hirq⟩ => ?_⟩
  · rw [idleStep_starts (s := { s with inputs := rest }) hb (commandWins_eq_true hgo), firstLabel_eq]
  · exact congrArg _ (idleStep_of_irq hirq fun _ => commandWins_eq_false hirq hwait)
  · exact congrArg _ (idleStep_of_irq hirq fun hbusy => by rw [hb] at hbusy; cases hbusy)
  · rw [idleStep_quiescent (s := { s with inputs := rest }) hb hirq]

end Sys2Proof.Machine

end

section

/-! The machine's step as the run of a program line or as a step of R15 (R104, assumptions 1 to 3). -/

namespace Sys2Proof.Machine

/-- Settles O1: State.reset is R50's values, with R9's record. -/
theorem resetStateHoldsTheSpecifiedValues : Obligations.ResetStateHoldsTheSpecifiedValues :=
  ⟨rfl, rfl, rfl, rfl, Memory.read_nil, rfl, rfl, rfl, rfl⟩

/-- A program line that may start is its command's meaning. -/
theorem step_command {s : State} {bytes : List Byte} {rest : List Input} {i : Instr}
    (hi : s.inputs = .command bytes :: rest) (hb : s.busy = false) (hd : decode s.params bytes = .ok i) :
    step s = exec i { s with inputs := rest } := by
  simp only [step, fetch_command hi hb, hd]

/-- R103: the decoder does not depend on the poll bounds and the modes. -/
theorem decode_standard {p : Params} (hstd : p.Standard) (bytes : List Byte) :
    decode p bytes = decode Config.defaultParams bytes := by
  rw [hstd]
  rfl

theorem decode_tableBytes {nbits w : Nat} {i : Instr} (h : decodeTableWord nbits w = some i) :
    decode Config.defaultParams (tableBytes nbits w) = .ok i := by
  unfold decodeTableWord at h
  cases hd : decode Config.defaultParams (tableBytes nbits w) with
  | ok j => rw [hd] at h; exact congrArg _ (Option.some.inj h)
  | error r => rw [hd] at h; cases h

/-- Settles O7: both forms are a program line that may start. -/
theorem stepRunsTheDecodedCommand : Obligations.StepRunsTheDecodedCommand := by
  refine ⟨fun s bytes rest i hi hb hd => step_command hi hb hd, fun s nbits w i hstd h => ?_⟩
  exact step_command (s := s.withFetchWord nbits w) rfl rfl ((decode_standard hstd _).trans (decode_tableBytes h))

/-- Settles O8: the free draw is the witness. -/
theorem unscriptedStepIsAStepOfSomeInputs : Obligations.UnscriptedStepIsAStepOfSomeInputs := by
  intro s hi
  have hfree : step s = microStep (freeDraw s.drawn) { s with inputs := [], drawn := s.drawn + 1 } := by
    rw [step_of_not_command (by simp [hi])]
    simp [advance, hi, freeMicroStep]
  exact ⟨freeDraw s.drawn, hfree.trans
    (step_tick (s := { s with inputs := [.tick (freeDraw s.drawn)], drawn := s.drawn + 1 }) rfl).symm⟩

/-! ### A command as its `Submit` and steps -/

/-- A drive is a run of the machine's own steps: while the block is busy no program line starts. -/
theorem exists_run_eq_drive (n : Nat) : ∀ s : State, ∃ k, Sys2Proof.core.run k s = .next (drive n s) := by
  induction n with
  | zero => exact fun s => ⟨0, rfl⟩
  | succ n ih =>
    intro s
    cases hb : s.busy with
    | false => exact ⟨0, by rw [drive_of_idle hb]; rfl⟩
    | true =>
      cases ha : advance s with
      | next t =>
        obtain ⟨k, hk⟩ := ih t
        refine ⟨k + 1, ?_⟩
        rw [core_run_next ((step_of_busy hb).trans ha), hk]
        simp [drive, hb, ha]
      | fault | refused => exact ⟨0, by simp [drive, hb, ha]; rfl⟩

/-- R104: on a block that is not busy a command is its `Submit` and the steps to its end. -/
theorem exec_of_not_busy {s : State} (hb : s.busy = false) (i : Instr) :
    exec i s = .next (drive (commandBudget s) (submit (encode s.params i) s)) := by
  rw [exec_eq_runCommand, runCommand, if_neg (by simp [hb])]

/-- Settles O10: one step for the `Submit`, then those of the drive. -/
theorem commandIsItsSubmitAndSteps : Obligations.CommandIsItsSubmitAndSteps := by
  intro s i hb
  obtain ⟨k, hk⟩ := exists_run_eq_drive (commandBudget s) (submit (encode s.params i) s)
  refine ⟨k + 1, ?_⟩
  rw [core_run_next (step_submit rfl), exec_of_not_busy hb]
  exact hk.symm

/-! ### A command that is turned away -/

/-- R194: on a busy block a command is its refused `Submit`. -/
theorem exec_of_busy {s : State} (hb : s.busy = true) (i : Instr) : exec i s = .next (s.raise .concurrencyViolation) := by
  rw [exec_eq_runCommand, runCommand, if_pos hb, submit_of_busy hb]

/-- R192: a command that does not fit is its refused `Submit`. -/
theorem exec_of_overlong {s : State} {i : Instr} (hb : s.busy = false) (h : ¬ i.WellFormed s.params) :
    exec i s = .next ({ s with status := .bufferFault }.raise .bufferFault) := by
  have hlen : s.params.cbSize < (encode s.params i).length := by rw [encode_length]; exact Nat.lt_of_not_le h
  rw [exec_of_not_busy hb, submit_of_overlong hb hlen, drive_of_idle (by exact hb)]

/-- Settles O52: what turns a command away is its `Submit`, and no step follows. -/
theorem commandTurnedAwayWritesAtMostStatus : Obligations.CommandTurnedAwayWritesAtMostStatus :=
  fun _ i => ⟨fun hb => exec_of_busy hb i, fun hb h => exec_of_overlong hb h⟩

end Sys2Proof.Machine

end

section

/-! The commands that run from their acceptance to their `done` (R161 to R163, R170 to R172; assumption 1). -/

namespace Sys2Proof.Machine

/-! ### The accepted command -/

/-- The state in which a command's steps begin: its byte string is loaded and latched (R142, R143). -/
def State.accepted (s : State) (i : Instr) : State := (s.loadCommand (encode s.params i)).accept i.kind

theorem accepted_cbLen (s : State) (i : Instr) : (s.accepted i).cbLen = BitVec.ofNat 8 i.length := by
  simp [State.accepted, encode_length]

theorem read_accepted {s : State} (hwf : Memory.wf s.cb) (i : Instr) (k : Nat) :
    Memory.read (s.accepted i).cb k = ((encode s.params i)[k]?).getD (Memory.read s.cb k) := read_loadCommand hwf _ k

theorem accepted_cb_wf {s : State} (hwf : Memory.wf s.cb) (i : Instr) : Memory.wf (s.accepted i).cb := loadCommand_wf hwf _

/-- R141: a command that fits is accepted where none is in flight. -/
theorem submit_encode {s : State} {i : Instr} (hop : [s.params.opEn, s.params.opDis, s.params.opRd, s.params.opWr].Nodup)
    (hwf : i.WellFormed s.params) (hb : s.busy = false) : submit (encode s.params i) s = s.accepted i :=
  submit_of_decode_ok hb (decode_encode hop hwf)

/-- A run of the accepted command that ends with the block not busy is its meaning, where the budget covers it. -/
theorem exec_of_drives {s t : State} {i : Instr} {n : Nat} (hstd : s.params.Standard) (hwf : i.WellFormed s.params)
    (hb : s.busy = false) (h : Drives n (s.accepted i) t) (ht : t.busy = false) (hn : n ≤ commandBudget s) :
    exec i s = .next t := by
  rw [exec_of_not_busy hb, submit_encode hstd.opcodes_nodup hwf hb, h.drive_eq ht hn]

/-! ### `EN` and `DIS` -/

theorem firstLabel_of_not_movesWord {k : Kind} (hk : movesWord k = false) : firstLabel k = .ienIer := by
  cases k <;> simp [movesWord, firstLabel] at hk ⊢

/-- R145, R172: an interrupt command that the arbitration lets go takes two steps. -/
theorem Drives.interruptCommand {s : State} {u d : Draw} {rest : List Input} (hb : s.busy = true) (hs : s.step = .idle)
    (hk : movesWord s.kind = false) (hw : commandWins s.params.arbOrder u = true)
    (hi : s.inputs = .tick u :: .tick d :: rest) : Drives 2 s (ienIer { s with inputs := rest, step := .ienIer }) := by
  have hstart : labelStep u { s with inputs := .tick d :: rest } = { s with inputs := .tick d :: rest, step := .ienIer } := by
    have hidle : labelStep u { s with inputs := .tick d :: rest } = idleStep u { s with inputs := .tick d :: rest } := by
      simp only [labelStep, hs]
    rw [hidle, idleStep_starts (s := { s with inputs := .tick d :: rest }) hb hw, firstLabel_of_not_movesWord hk]
  have d1 := Drives.label hb hi (by simp [State.hasRule, hs]) hstart
  exact d1.trans (Drives.label hb rfl (by simp [State.hasRule, hk]) rfl)

/-- R170 to R172: an interrupt command on a ready block. -/
theorem exec_interruptCommand {s : State} {i : Instr} {u d : Draw} {rest : List Input} (hstd : s.params.Standard)
    (hwf : i.WellFormed s.params) (hready : s.Ready u) (hk : movesWord i.kind = false)
    (hi : s.inputs = .tick u :: .tick d :: rest) :
    exec i s = .next { s with inputs := rest, kind := i.kind, addr := Memory.read (s.accepted i).cb 1, tmo := false, cb := (s.accepted i).cb, cbLen := BitVec.ofNat 8 i.length, status := .ok, ctl := { s.ctl with ier := ienWord s.params i.kind }, trace := [Event.done .ok, .w32 .ier (ienWord s.params i.kind), .response .accepted] ++ s.trace } := by
  have hw : commandWins s.params.arbOrder u = true := commandWins_of_ready hready
  obtain ⟨hb, hs, -⟩ := hready
  have hd : Drives 2 (s.accepted i) _ := Drives.interruptCommand rfl hs hk hw hi
  rw [exec_of_drives hstd hwf hb hd rfl (by unfold commandBudget; omega), ← accepted_cbLen s i]
  simp [ienIer, State.complete, State.memWrite32, State.accepted, State.accept, State.loadCommand, hb, hs]

/-- Settles O43: the interrupt command whose word is `IER_ON`. -/
theorem enableInterruptCompletes : Obligations.EnableInterruptCompletes := by
  intro s trail u d rest hstd hwf hcb hready hi
  refine ⟨_, exec_interruptCommand hstd hwf hready rfl hi, ?_, rfl, fun k => ?_⟩
  · rw [← ienWord_en hstd]
    rfl
  · rw [← hstd.opEn]
    exact read_accepted hcb (.en trail) k

/-- Settles O44: the interrupt command whose word is `IER_OFF`. -/
theorem disableInterruptCompletes : Obligations.DisableInterruptCompletes := by
  intro s trail u d rest hstd hwf hcb hready hi
  refine ⟨_, exec_interruptCommand hstd hwf hready rfl hi, rfl, rfl, fun k => ?_⟩
  rw [← hstd.opDis]
  exact read_accepted hcb (.dis trail) k

/-! ### `RD` and `WR` -/

section

variable {s : State} {i : Instr} {x : Transfer} {rest : List Input} {tx : Nat → Byte}

/-- What an ended transfer leaves: `status` and `cb_len` by the code, the data read, the bus idle, and the accesses. -/
def State.transferred (s : State) (i : Instr) (x : Transfer) (tx : Nat → Byte) (rest : List Input) (code : Code)
    (len : BitVec 8) (last : BitVec 3) (c : Controller) : State :=
  { s.accepted i with
    step := .idle, busy := false, idx := last, poll := 0#14, cb := receiveAll i.kind (s.accepted i).cb 1 x.exchanges.tail,
    inputs := rest, status := code, cbLen := len,
    ctl := { c with cr := cwCfg s.params i.kind, ssr := s.params.ssDeassert, ier := ierOn s.params },
    trace := .done code :: ((x.accesses (cwCfg s.params i.kind) (cwRun s.params i.kind)
      (abyte s.params i.kind (s.accepted i).addr) tx).reverse ++ (s.accepted i).trace) }

variable (hstd : s.params.Standard) (hwf : i.WellFormed s.params) (hready : s.Ready x.start) (hk : movesWord i.kind = true)
  (htx : ∀ j, 1 ≤ j → j ≤ 4 → tx j = if i.kind = .wr then Memory.read (s.accepted i).cb (6 - j) else 0x00#8)
  (hi : s.inputs = x.inputs ++ rest)
include hstd hwf hready hk htx hi

/-- R163: a transfer whose exchanges all complete. -/
theorem exec_transferPasses (hx : x.Completes s.params) : ∃ c, SameUntouched c s.ctl ∧
    exec i s = .next (s.transferred i x tx rest .ok (if i.kind = .rd then 4#8 else (s.accepted i).cbLen) (lastIdx i.kind) c) := by
  have hw : commandWins s.params.arbOrder x.start = true := commandWins_of_ready hready
  obtain ⟨hb, hs, -⟩ := hready
  obtain ⟨c, hc, hd⟩ := Drives.transferPasses tx x (s.accepted i) rest hstd rfl hs rfl hk hw hx htx hi
  exact ⟨c, hc, exec_of_drives hstd hwf hb hd rfl (by rw [commandBudget, hi, List.length_append]; omega)⟩

/-- R126: a transfer that times out. -/
theorem exec_transferTimesOut {cut : CutExchange} (hp : paramsWf s.params) (hm : s.params.timeoutMode = .abort)
    (hx : x.TimesOut s.params cut) : ∃ c last, SameUntouched c s.ctl ∧
    exec i s = .next (s.transferred i x tx rest .transferTimeout (s.accepted i).cbLen last c) := by
  have hw : commandWins s.params.arbOrder x.start = true := commandWins_of_ready hready
  obtain ⟨hb, hs, -⟩ := hready
  obtain ⟨c, last, hc, hd⟩ := Drives.transferTimesOut tx x cut (s.accepted i) rest hstd rfl hs hk hw hx hp hm htx hi
  exact ⟨c, last, hc, exec_of_drives hstd hwf hb hd rfl (by rw [commandBudget, hi, List.length_append]; omega)⟩

end

/-! ### What the caller finds -/

section

variable {s : State} {i : Instr} {x : Transfer} {tx : Nat → Byte} {rest : List Input} {code : Code}
  {len len' : BitVec 8} {last : BitVec 3} {c : Controller} {cfg run : Word}

/-- The end of a transfer, with the kind, the latched address and the words it used given by name. -/
theorem transferred_eq {k : Kind} {a ab : Byte} (hready : s.Ready x.start) (hkind : i.kind = k)
    (haddr : (s.accepted i).addr = a) (hcfg : cwCfg s.params i.kind = cfg) (hrun : cwRun s.params i.kind = run)
    (hab : abyte s.params i.kind a = ab) (hlen : len = len') :
    s.transferred i x tx rest code len last c =
      { s with inputs := rest, kind := k, addr := a, idx := last, poll := 0#14, tmo := false, cb := (s.transferred i x tx rest code len last c).cb, cbLen := len', status := code, ctl := (s.transferred i x tx rest code len last c).ctl, trace := .done code :: (x.accesses cfg run ab tx).reverse ++ (.response .accepted :: s.trace) } := by
  obtain ⟨hb, hs, -⟩ := hready
  subst hkind haddr hcfg hrun hab hlen
  simp [State.transferred, State.accepted, State.accept, State.loadCommand, hb, hs]

/-- R168, R174: the bus is idle. -/
theorem transferred_ctl (hstd : s.params.Standard) (hcfg : cwCfg s.params i.kind = cfg) (hc : SameUntouched c s.ctl) :
    let ctl := (s.transferred i x tx rest code len last c).ctl
    ctl.cr = cfg ∧ ctl.ssr = 0xFFFFFFFF#32 ∧ ctl.ier = 0x00000010#32 ∧ ctl.gier = s.ctl.gier ∧ ctl.isr = s.ctl.isr :=
  ⟨hcfg, hstd.ssDeassert, ierOn_eq hstd, hc.1, hc.2⟩

end

section

variable {xs : List Exchange} {m : Memory} (hm : Memory.wf m) (hlen : xs.length ≤ 5)
include hm hlen

/-- R163: a read's data exchange `j` stores its answer at `4 - j`. -/
theorem read_receiveAll_stored {j : Nat} {e : Exchange} (hj : 1 ≤ j) (he : xs[j]? = some e) :
    Memory.read (receiveAll .rd m 1 xs.tail) (4 - j) = e.data.drr := by
  obtain ⟨hlt, -⟩ := List.getElem?_eq_some_iff.1 he
  have htail : xs.tail[4 - 1 - (4 - j)]? = some e := by
    rw [List.getElem?_tail, ← he]
    congr 1
    omega
  rw [read_receiveAll _ _ 1 hm (Nat.le_refl 1) (by rw [List.length_tail]; omega), if_pos (by omega), htail]
  rfl

/-- R163: the positions of exchanges not made, and those beyond the word, are as loaded. -/
theorem read_receiveAll_kept {k : Nat} (hk : 4 ≤ k ∨ k + xs.length < 5) :
    Memory.read (receiveAll .rd m 1 xs.tail) k = Memory.read m k := by
  rw [read_receiveAll _ _ 1 hm (Nat.le_refl 1) (by rw [List.length_tail]; omega)]
  split
  · have hnone : xs.tail[4 - 1 - k]? = none := List.getElem?_eq_none (by rw [List.length_tail]; omega)
    rw [hnone]
    rfl
  · rfl

end

section

variable {s : State} {a p0 p1 p2 p3 : Byte} {trail : List Byte} (hcb : Memory.wf s.cb)
include hcb

/-- R143: the latched address is the command's second byte. -/
theorem accepted_rd_addr : (s.accepted (.rd a trail)).addr = a := read_accepted hcb (.rd a trail) 1

/-- R143: the latched address is the command's second byte. -/
theorem accepted_wr_addr : (s.accepted (.wr a p0 p1 p2 p3 trail)).addr = a :=
  read_accepted hcb (.wr a p0 p1 p2 p3 trail) 1

/-- R67, R162: data exchange `j` of a write sends the payload byte loaded at `6 - j`. -/
theorem payloadByte_eq_read : ∀ j, 1 ≤ j → j ≤ 4 →
    payloadByte p0 p1 p2 p3 j = Memory.read (s.accepted (.wr a p0 p1 p2 p3 trail)).cb (6 - j) := by
  intro j hj hj4
  rw [read_accepted hcb]
  interval_cases j <;> rfl

end

/-- R156, R162: a write leaves the Command Buffer as loaded, cut short or not. -/
theorem read_transferred_wr {s : State} {a p0 p1 p2 p3 : Byte} {trail : List Byte} {x : Transfer} {tx : Nat → Byte}
    {rest : List Input} {code : Code} {len : BitVec 8} {last : BitVec 3} {c : Controller} (hstd : s.params.Standard)
    (hcb : Memory.wf s.cb) (k : Nat) :
    Memory.read (s.transferred (.wr a p0 p1 p2 p3 trail) x tx rest code len last c).cb k =
      ((0x77#8 :: a :: p0 :: p1 :: p2 :: p3 :: trail)[k]?).getD (Memory.read s.cb k) := by
  rw [← hstd.opWr]
  exact (congrArg (Memory.read · k) (receiveAll_wr _ _ _)).trans (read_accepted hcb _ k)

/-- Settles O45: the whole transfer, whose data answers are stored from position 3 down. -/
theorem readWordCompletes : Obligations.ReadWordCompletes := by
  intro s a trail x rest hstd hwf hcb hready hx hi
  obtain ⟨c, hc, hexec⟩ := exec_transferPasses (tx := fun _ => 0x00#8) hstd hwf hready rfl (fun _ _ _ => rfl) hi hx
  obtain ⟨-, hlen, -⟩ := hx
  have hm := accepted_cb_wf hcb (.rd a trail)
  refine ⟨_, hexec, transferred_eq hready rfl (accepted_rd_addr hcb) (cwCfg_rd hstd) (cwRun_rd hstd) (abyte_rd _ _) rfl,
    fun j e hj he => read_receiveAll_stored hm hlen.le hj he, fun k hk => ?_, transferred_ctl hstd (cwCfg_rd hstd) hc⟩
  rw [← hstd.opRd]
  exact (read_receiveAll_kept hm hlen.le (.inl hk)).trans (read_accepted hcb _ k)

/-- Settles O46: the whole transfer, which sends the loaded payload from its last byte down and stores nothing. -/
theorem writeWordCompletes : Obligations.WriteWordCompletes := by
  intro s a p0 p1 p2 p3 trail x rest hstd hwf hcb hready hx hi
  obtain ⟨c, hc, hexec⟩ := exec_transferPasses (tx := payloadByte p0 p1 p2 p3) hstd hwf hready rfl
    (payloadByte_eq_read hcb) hi hx
  exact ⟨_, hexec, transferred_eq hready rfl (accepted_wr_addr hcb) (cwCfg_wr hstd) (cwRun_wr hstd) (abyte_wr hstd a)
    (accepted_cbLen s _), read_transferred_wr hstd hcb, transferred_ctl hstd (cwCfg_wr hstd) hc⟩

/-- Settles O47: the exchanges before the one that is cut have stored their answers. -/
theorem readWordTimesOut : Obligations.ReadWordTimesOut := by
  intro s a trail x cut rest hstd hwf hcb hp hmode hready hx hi
  obtain ⟨c, last, hc, hexec⟩ := exec_transferTimesOut (tx := fun _ => 0x00#8) hstd hwf hready rfl (fun _ _ _ => rfl) hi
    hp hmode hx
  obtain ⟨-, hlen, -⟩ := hx
  have hm := accepted_cb_wf hcb (.rd a trail)
  refine ⟨_, hexec, transferred_eq hready rfl (accepted_rd_addr hcb) (cwCfg_rd hstd) (cwRun_rd hstd) (abyte_rd _ _)
    (accepted_cbLen s _), fun j e hj he => read_receiveAll_stored hm (by omega) hj he, fun k hk => ?_,
    transferred_ctl hstd (cwCfg_rd hstd) hc⟩
  rw [← hstd.opRd]
  exact (read_receiveAll_kept hm (by omega) hk).trans (read_accepted hcb _ k)

/-- Settles O48: a write stores nothing, cut short or not. -/
theorem writeWordTimesOut : Obligations.WriteWordTimesOut := by
  intro s a p0 p1 p2 p3 trail x cut rest hstd hwf hcb hp hmode hready hx hi
  obtain ⟨c, last, hc, hexec⟩ := exec_transferTimesOut (tx := payloadByte p0 p1 p2 p3) hstd hwf hready rfl
    (payloadByte_eq_read hcb) hi hp hmode hx
  exact ⟨_, hexec, transferred_eq hready rfl (accepted_wr_addr hcb) (cwCfg_wr hstd) (cwRun_wr hstd) (abyte_wr hstd a)
    (accepted_cbLen s _), read_transferred_wr hstd hcb, transferred_ctl hstd (cwCfg_wr hstd) hc⟩

end Sys2Proof.Machine

end

section

/-! The bytes a completed transfer puts on the wire, and a word written and read back (R64, R67, R68). -/

namespace Sys2Proof.Machine

theorem wireBytes_append (es fs : List Event) : wireBytes (es ++ fs) = wireBytes es ++ wireBytes fs := by
  induction es using wireBytes.induct with
  | case1 => rfl
  | case2 v es ih => simp [wireBytes, ih]
  | case3 e es hne ih => simp [wireBytes, ih]

/-- R64: reading Status puts nothing on the wire. -/
theorem wireBytes_statusReads (us : List Draw) : wireBytes (us.map fun u => Event.r32 .sr u.sr) = [] := by
  induction us with
  | nil => rfl
  | cons u us ih => simpa [wireBytes] using ih

theorem wireBytes_reads (e : Exchange) : wireBytes e.reads = [] := by
  rw [Exchange.reads, wireBytes_append, wireBytes_statusReads]
  rfl

/-- The byte that exchange `j` puts on the wire (R101, R153, R154). -/
def wireByte (ab : Byte) (tx : Nat → Byte) (j : Nat) : Byte := if j = 0 then ab else tx j

theorem wireBytes_exchangeWrites (run : Word) (ab : Byte) (tx : Nat → Byte) (j : Nat) :
    wireBytes (exchangeWrites run ab tx j) = [wireByte ab tx j] := by
  unfold exchangeWrites wireByte
  split <;> rfl

/-- R64: each exchange puts one byte on the wire. -/
theorem wireBytes_exchangesAccesses (run : Word) (ab : Byte) (tx : Nat → Byte) (es : List Exchange) (j : Nat) :
    wireBytes (exchangesAccesses run ab tx j es) = (List.range' j es.length).map (wireByte ab tx) := by
  induction es generalizing j with
  | nil => rfl
  | cons e es ih =>
    rw [exchangesAccesses, wireBytes_append, wireBytes_append, wireBytes_exchangeWrites, wireBytes_reads, ih,
      List.length_cons, List.range'_succ]
    rfl

/-- R163: a completed transfer puts the address byte and the four data bytes on the wire. -/
theorem wireBytes_accesses {x : Transfer} {p : Params} (hx : x.Completes p) (cfg run : Word) (ab : Byte) (tx : Nat → Byte) :
    wireBytes (x.accesses cfg run ab tx) = [ab, tx 1, tx 2, tx 3, tx 4] := by
  obtain ⟨-, hlen, hcut⟩ := hx
  rw [Transfer.accesses, wireBytes_append, wireBytes_append, wireBytes_append, wireBytes_exchangesAccesses, hlen,
    Transfer.cutAccesses, hcut]
  rfl

/-! ### The canonical Command Buffer through a command -/

theorem cb_wf_stepClosed : StepClosed fun s => Memory.wf s.cb where
  submit bs s h := by
    rcases submit_cases bs s with ⟨-, e⟩ | ⟨-, -, e⟩ | ⟨-, -, e⟩ | ⟨-, i, -, e⟩ <;> rw [e]
    · exact h
    · exact h
    · exact loadCommand_wf h bs
    · exact loadCommand_wf h bs
  readBack _ h := h
  reset _ _ := ⟨List.Pairwise.nil, nofun⟩
  label u s _ h := by
    rw [labelStep_cb]
    split
    · exact Memory.write_wf _ h _ _
    · exact h
  inputs _ _ h := h
  drawn _ _ h := h

theorem exec_cb_wf {i : Instr} {s t : State} (hcb : Memory.wf s.cb) (h : exec i s = .next t) : Memory.wf t.cb := by
  rw [exec_eq_runCommand] at h
  exact cb_wf_stepClosed.runCommand hcb h

/-! ### A word written and read back -/

/-- The answers of a read's data exchanges, in the order in which they come, are found from position 3 down. -/
theorem rdData_of_answers {r : State} {xs : List Exchange} {b1 b2 b3 b4 : Byte} (hstd : r.params.Standard)
    (hxs : (xs.map fun e => e.data.drr).tail = [b1, b2, b3, b4])
    (hread : ∀ (j : Nat) (e : Exchange), 1 ≤ j → xs[j]? = some e → Memory.read r.cb (4 - j) = e.data.drr) :
    r.rdData = [b4, b3, b2, b1] := by
  have hat : ∀ j b, [b1, b2, b3, b4][j]? = some b → Memory.read r.cb (4 - (j + 1)) = b := by
    intro j b hb
    rw [← hxs, List.getElem?_tail, List.getElem?_map, Option.map_eq_some_iff] at hb
    obtain ⟨e, he, rfl⟩ := hb
    exact hread (j + 1) e (by omega) he
  rw [(readWordIsLeastSignificantByteFirst r hstd).2, hat 3 b4 rfl, hat 2 b3 rfl, hat 1 b2 rfl, hat 0 b1 rfl]

/-- Settles O49: the wire carries the payload last byte first, and a read stores its answers last position first. -/
theorem writeThenReadIsNetNeutral : Obligations.WriteThenReadIsNetNeutral := by
  intro s t r a p0 p1 p2 p3 trail trail' x y es hstd hwfw hwfr hcb hready hx hi hw htrace hready' hy hr hwire
  obtain ⟨t', hw', heq, -⟩ := writeWordCompletes s a p0 p1 p2 p3 trail x y.inputs hstd hwfw hcb hready hx hi
  obtain rfl : t' = t := Host.Outcome.next.inj (hw'.symm.trans hw)
  have hparams : t'.params = s.params := (congrArg State.params heq :)
  have hinputs : t'.inputs = y.inputs ++ [] := (congrArg State.inputs heq).trans (List.append_nil _).symm
  obtain ⟨r', hr', heq', hread, -⟩ := readWordCompletes t' a trail' y [] (hparams ▸ hstd) (hparams ▸ hwfr)
    (exec_cb_wf hcb hw) hready' hy hinputs
  obtain rfl : r' = r := Host.Outcome.next.inj (hr'.symm.trans hr)
  have hes : es.reverse = .response .accepted :: (x.accesses 0x00000186#32 0x00000086#32 (a ||| 0x80#8)
      (payloadByte p0 p1 p2 p3) ++ [.done .ok]) := by
    have h : es ++ s.trace = (.done .ok :: (x.accesses 0x00000186#32 0x00000086#32 (a ||| 0x80#8)
        (payloadByte p0 p1 p2 p3)).reverse ++ [.response .accepted]) ++ s.trace := by
      rw [← htrace, List.append_assoc]
      exact congrArg State.trace heq
    rw [List.append_cancel_right h]
    simp
  have hbytes : (wireBytes es.reverse).tail = [p3, p2, p1, p0] := by
    rw [hes, wireBytes, wireBytes_append, wireBytes_accesses hx]
    · rfl
    · simp
  have hparams' : r'.params = t'.params := (congrArg State.params heq' :)
  exact ⟨rdData_of_answers (hparams' ▸ hparams ▸ hstd) (hwire.trans hbytes) hread, congrArg State.status heq',
    congrArg State.cbLen heq'⟩

end Sys2Proof.Machine

end

section

/-! In `legacy` mode a timeout is never reported (R30, R127). -/

namespace Sys2Proof.Machine

/-- R30: `tmo` is never set in `legacy` mode. -/
theorem tmo_of_legacy {s : State} (h : s.Inv) (hm : s.params.timeoutMode = .legacy) : s.tmo = false := by
  obtain ⟨hpos, -⟩ := h
  unfold State.positionOk at hpos
  cases hl : s.step <;> simp [hl, hm] at hpos <;> simp [hpos]

/-- `t` comes from `s` within the invariant, in `legacy` mode, with no timeout among its events. -/
def LegacyRun (s t : State) : Prop :=
  t.Inv ∧ t.params.timeoutMode = .legacy ∧ ∃ es, t.trace = es ++ s.trace ∧ Event.done .transferTimeout ∉ es

theorem LegacyRun.of_emits {es : List Event} {s t r : State} (h : LegacyRun s t) (hinv : r.Inv) (k : Emits es t r)
    (hes : Event.done .transferTimeout ∉ es) : LegacyRun s r := by
  obtain ⟨-, hm, fs, hfs, hno⟩ := h
  exact ⟨hinv, k.params ▸ hm, es ++ fs, by rw [k.trace, hfs, List.append_assoc], by simp [hes, hno]⟩

/-- R160: the one label that can report a timeout does so when `tmo` is set. -/
theorem timeout_not_mem_labelEvents (u : Draw) {s : State} (ht : s.tmo = false) :
    Event.done .transferTimeout ∉ labelEvents u s := by
  unfold labelEvents
  cases s.step <;> simp [completionCode, ht]

theorem legacyRun_stepClosed (s : State) : StepClosed (LegacyRun s) where
  submit bs t h := by
    obtain ⟨r, hr⟩ := submit_emits bs t
    exact h.of_emits (submit_inv bs h.1) hr (by simp)
  readBack t h := h.of_emits h.1 (readBack_emits t) (by simp)
  reset t h := h.of_emits (inv_stepClosed.reset t h.1) (resetBlock_emits t) (by simp)
  label u t _ h := h.of_emits (labelStep_inv u h.1) (labelStep_emits u t)
    (timeout_not_mem_labelEvents u (tmo_of_legacy h.1 h.2.1))
  inputs _ _ h := h
  drawn _ _ h := h

/-- Settles O50: the invariant keeps `tmo` clear, and then no label reports a timeout. -/
theorem legacyModeNeverReportsATimeout : Obligations.LegacyModeNeverReportsATimeout := by
  intro s t hinv hm h
  have start : LegacyRun s s := ⟨hinv, hm, [], rfl, by simp⟩
  obtain ⟨hinv', hm', hes⟩ := (legacyRun_stepClosed s).step start h
  exact ⟨tmo_of_legacy hinv' hm', hes⟩

end Sys2Proof.Machine

end

section

/-! What the steps of a busy block leave unchanged while no `Reset` comes, and the frames of the commands. -/

namespace Sys2Proof.Machine

/-- Everything a step of R15 can be while a transaction is in flight: a host event that is only answered, a `Reset`, or a
label's step with some inputs (R166, R194, R220). -/
theorem advance_busy_cases {s t : State} (hb : s.busy = true) (h : advance s = .next t) :
    (∃ x rest e, s.inputs = x :: rest ∧ e.isAccess = false ∧ t = { s with inputs := rest, trace := e :: s.trace }) ∨
    (∃ rest, s.inputs = .reset :: rest ∧ t = resetBlock { s with inputs := rest }) ∨
    (∃ u rest n, rest <:+ s.inputs ∧ s.hasRule = true ∧ t = labelStep u { s with inputs := rest, drawn := n }) := by
  rcases advance_cases s with ⟨bs, rest, hi, e⟩ | ⟨rest, hi, e⟩ | ⟨rest, hi, e⟩ | ⟨u, rest, hi, e⟩ | ⟨-, e⟩ <;> rw [e] at h
  · rw [submit_of_busy (s := { s with inputs := rest }) hb] at h
    cases h
    exact .inl ⟨_, rest, _, hi, rfl, rfl⟩
  · cases h
    exact .inl ⟨_, rest, _, hi, rfl, rfl⟩
  · cases h
    exact .inr (.inl ⟨rest, hi, rfl⟩)
  · obtain ⟨hr, rfl⟩ := microStep_next h
    exact .inr (.inr ⟨u, rest, s.drawn, hi ▸ List.suffix_cons _ _, hr, rfl⟩)
  · obtain ⟨hr, rfl⟩ := microStep_next h
    exact .inr (.inr ⟨_, s.inputs, _, List.suffix_rfl, hr, rfl⟩)

/-- A predicate that every step of a busy block but a `Reset` keeps. -/
structure BusyClosed (P : State → Prop) : Prop where
  event : ∀ e s, P s → P { s with trace := e :: s.trace }
  label : ∀ u s, s.hasRule = true → P s → P (labelStep u s)
  inputs : ∀ s is n, P s → P { s with inputs := is, drawn := n }

/-- The run of a program line keeps it, where no `Reset` is to come. -/
theorem BusyClosed.drive {P : State → Prop} (hP : BusyClosed P) {s : State} (hreset : Input.reset ∉ s.inputs) (h : P s)
    (n : Nat) : P (drive n s) := by
  refine (drive_induction (P := fun s => Input.reset ∉ s.inputs ∧ P s) ?_ n s ⟨hreset, h⟩).2
  rintro s t hb ha ⟨hreset, h⟩
  rcases advance_busy_cases hb ha with ⟨x, rest, e, hi, -, rfl⟩ | ⟨rest, hi, -⟩ | ⟨u, rest, n, hsuf, hr, rfl⟩
  · rw [hi, List.mem_cons, not_or] at hreset
    exact ⟨hreset.2, hP.event e _ (hP.inputs s rest s.drawn h)⟩
  · simp [hi] at hreset
  · obtain ⟨-, -, hinputs, -⟩ := labelStep_latched u { s with inputs := rest, drawn := n }
    refine ⟨fun hmem => ?_, hP.label u _ hr (hP.inputs s rest n h)⟩
    rw [hinputs] at hmem
    exact hreset (hsuf.subset hmem)

/-! ### `EN` and `DIS` -/

/-- R170 to R172, R175: at the labels that the rules give an interrupt command, a label's step writes `step`, `busy` and
`status` of the block, and `IER` and `DRR` of the record. -/
theorem labelStep_interrupt_frame (u : Draw) {s : State} (hr : s.hasRule = true) (hk : movesWord s.kind = false) :
    labelStep u s = { s with step := (labelStep u s).step, busy := (labelStep u s).busy, status := (labelStep u s).status, ctl := (labelStep u s).ctl, trace := (labelStep u s).trace } ∧
    (labelStep u s).ctl = { s.ctl with ier := (labelStep u s).ctl.ier, drr := (labelStep u s).ctl.drr } := by
  have hi : idxInRange s.params s.kind s.idx = false := by
    cases h : idxInRange s.params s.kind s.idx
    · rfl
    · rw [movesWord_of_idxInRange h] at hk; cases hk
  unfold State.hasRule at hr
  unfold labelStep
  cases hl : s.step with
  | idle => dsimp only; rw [idleStep_frame]; exact ⟨rfl, rfl⟩
  | ienIer | irqDis | irqDrr | irqEn | irqAck => exact ⟨rfl, rfl⟩
  | _ => simp [hl, hk, hi] at hr

/-- `t` is as `s` but for what an interrupt command and the handler may write. -/
structure InterruptFrame (s t : State) : Prop where
  kind : movesWord t.kind = false
  idx : t.idx = s.idx
  poll : t.poll = s.poll
  params : t.params = s.params
  cb : t.cb = s.cb
  ctl : t.ctl = { s.ctl with ier := t.ctl.ier, drr := t.ctl.drr }

theorem interruptFrame_busyClosed (s : State) : BusyClosed (InterruptFrame s) where
  event _ _ h := ⟨h.kind, h.idx, h.poll, h.params, h.cb, h.ctl⟩
  label u t hr h := by
    obtain ⟨hframe, hctl⟩ := labelStep_interrupt_frame u hr h.kind
    have hkind := (labelStep_latched u t).1
    refine ⟨hkind ▸ h.kind, ?_, ?_, ?_, ?_, ?_⟩
    · rw [hframe]; exact h.idx
    · rw [hframe]; exact h.poll
    · rw [hframe]; exact h.params
    · rw [hframe]; exact h.cb
    · rw [hctl, h.ctl]
  inputs _ _ _ h := ⟨h.kind, h.idx, h.poll, h.params, h.cb, h.ctl⟩

/-- R94, whatever the opcodes are: an interrupt command that fits is taken as an interrupt command. -/
theorem decode_encode_interrupt {p : Params} {i : Instr} {trail : List Byte} (hi : i = .en trail ∨ i = .dis trail)
    (hwf : i.WellFormed p) : ∃ j, decode p (encode p i) = .ok j ∧ movesWord j.kind = false := by
  have hlen : (encode p i).length ≤ p.cbSize := (encode_length p i).trans_le hwf
  rcases hi with rfl | rfl
  · exact ⟨.en trail, (decode_cons hlen).trans (by simp [decodeAfterOpcode]), rfl⟩
  · by_cases h : p.opDis = p.opEn
    · exact ⟨.en trail, (decode_cons hlen).trans (by simp [decodeAfterOpcode, h]), rfl⟩
    · exact ⟨.dis trail, (decode_cons hlen).trans (by simp [decodeAfterOpcode, h]), rfl⟩

/-- R142: a load leaves the bytes beyond the command. -/
theorem read_load_beyond {s : State} {i : Instr} (hcb : Memory.wf s.cb) {k : Nat} (hk : i.length ≤ k) :
    Memory.read (s.loadCommand (encode s.params i)).cb k = Memory.read s.cb k := by
  rw [read_loadCommand hcb, List.getElem?_eq_none (by rwa [encode_length])]
  rfl

/-- Settles O53: a command that is turned away writes `status` at most, and an accepted one has only the labels of an
interrupt command and of the handler to run. -/
theorem interruptCommandFrame : Obligations.InterruptCommandFrame := by
  intro s t i trail hi hcb hreset h
  cases hb : s.busy with
  | true =>
    cases (exec_of_busy hb i).symm.trans h
    exact ⟨rfl, rfl, rfl, rfl, rfl, rfl, rfl, rfl, rfl, fun _ _ => rfl⟩
  | false =>
    by_cases hwf : i.WellFormed s.params
    · obtain ⟨j, hd, hk⟩ := decode_encode_interrupt hi hwf
      rw [exec_of_not_busy hb, submit_of_decode_ok hb hd] at h
      have start : InterruptFrame (s.loadCommand (encode s.params i)) ((s.loadCommand (encode s.params i)).accept j.kind) :=
        ⟨hk, rfl, rfl, rfl, rfl, rfl⟩
      have hreset' : Input.reset ∉ ((s.loadCommand (encode s.params i)).accept j.kind).inputs := hreset
      have hend := (interruptFrame_busyClosed _).drive hreset' start (commandBudget s)
      rw [Host.Outcome.next.inj h] at hend
      obtain ⟨-, hidx, hpoll, hparams, hcb', hctl⟩ := hend
      have hregs : t.ctl.cr = s.ctl.cr ∧ t.ctl.sr = s.ctl.sr ∧ t.ctl.dtr = s.ctl.dtr ∧ t.ctl.ssr = s.ctl.ssr ∧
          t.ctl.gier = s.ctl.gier ∧ t.ctl.isr = s.ctl.isr := by
        rw [hctl]
        exact ⟨rfl, rfl, rfl, rfl, rfl, rfl⟩
      obtain ⟨hcr, hsr, hdtr, hssr, hgier, hisr⟩ := hregs
      refine ⟨hidx, hpoll, hparams, hcr, hsr, hdtr, hssr, hgier, hisr, fun k hk => ?_⟩
      rw [hcb']
      exact read_load_beyond hcb hk
    · cases (exec_of_overlong hb hwf).symm.trans h
      exact ⟨rfl, rfl, rfl, rfl, rfl, rfl, rfl, rfl, rfl, fun _ _ => rfl⟩

/-! ### `RD` and `WR` -/

/-- `t` has the command and the parameters that were latched in `a`, and `GIER` and `ISR` as then. -/
structure LatchedFrame (a t : State) : Prop where
  kind : t.kind = a.kind
  addr : t.addr = a.addr
  params : t.params = a.params
  untouched : SameUntouched t.ctl a.ctl

theorem LatchedFrame.labelStep {a t : State} (h : LatchedFrame a t) (u : Draw) : LatchedFrame a (labelStep u t) := by
  obtain ⟨hkind, haddr, -⟩ := labelStep_latched u t
  obtain ⟨-, hparams, hgier, hisr⟩ := labelStep_emits u t
  exact ⟨hkind.trans h.kind, haddr.trans h.addr, hparams.trans h.params, hgier.trans h.untouched.1, hisr.trans h.untouched.2⟩

theorem LatchedFrame.congr {a t r : State} (h : LatchedFrame a t) (hkind : r.kind = t.kind) (haddr : r.addr = t.addr)
    (hparams : r.params = t.params) (hctl : r.ctl = t.ctl) : LatchedFrame a r :=
  ⟨hkind.trans h.kind, haddr.trans h.addr, hparams.trans h.params, hctl ▸ h.untouched⟩

/-- What a write keeps from its acceptance on: the Command Buffer and its length too (R156, R160). -/
def WriteFrame (a t : State) : Prop := LatchedFrame a t ∧ t.cb = a.cb ∧ t.cbLen = a.cbLen

theorem writeFrame_busyClosed {a : State} (hk : a.kind = .wr) : BusyClosed (WriteFrame a) where
  event _ _ h := ⟨h.1.congr rfl rfl rfl rfl, h.2⟩
  label u t _ h := by
    obtain ⟨hl, hcb, hlen⟩ := h
    have hwr : t.kind = .wr := hl.kind.trans hk
    refine ⟨hl.labelStep u, ?_, ?_⟩
    · rw [labelStep_cb, if_neg (by simp [hwr]), hcb]
    · rw [labelStep_cbLen, completedLen_wr hwr, ite_self, hlen]
  inputs _ _ _ h := ⟨h.1.congr rfl rfl rfl rfl, h.2⟩

/-- What a read keeps from its acceptance on: the Command Buffer beyond its word, and the length but for the word's
(R156, R160). -/
def ReadFrame (a t : State) : Prop :=
  LatchedFrame a t ∧ Memory.wf t.cb ∧ (∀ k, 4 ≤ k → Memory.read t.cb k = Memory.read a.cb k) ∧
  (t.cbLen = a.cbLen ∨ t.cbLen = 4#8)

/-- R26, R51: where the rules speak of a read's data label, the position is one of its word's. -/
theorem idx_lt_of_hasRule {s : State} (hstd : s.params.Standard) (hk : s.kind = .rd) (hr : s.hasRule = true)
    (hl : s.step = .datDrr) : s.idx.toNat < 4 := by
  simpa [State.hasRule, hl, idxInRange, hk, hstd.wordBytes] using hr

theorem completedLen_of_rd {s : State} (hstd : s.params.Standard) (hk : s.kind = .rd) :
    completedLen s = s.cbLen ∨ completedLen s = 4#8 := by
  cases ht : s.tmo with
  | true => exact .inl (completedLen_timedOut ht)
  | false => exact .inr (completedLen_rd hstd hk ht)

theorem readFrame_busyClosed {a : State} (hstd : a.params.Standard) (hk : a.kind = .rd) : BusyClosed (ReadFrame a) where
  event _ _ h := ⟨h.1.congr rfl rfl rfl rfl, h.2⟩
  label u t hr h := by
    obtain ⟨hl, hwf, hcb, hlen⟩ := h
    have hrd : t.kind = .rd := hl.kind.trans hk
    have hstd' : t.params.Standard := hl.params.symm ▸ hstd
    refine ⟨hl.labelStep u, ?_, fun k hk4 => ?_, ?_⟩
    · rw [labelStep_cb]
      split
      · exact Memory.write_wf _ hwf _ _
      · exact hwf
    · rw [labelStep_cb]
      split
      · rename_i hd
        have hlt := idx_lt_of_hasRule hstd' hrd hr hd.1
        rw [Memory.read_write _ hwf, if_neg (by omega), hcb k hk4]
      · exact hcb k hk4
    · rw [labelStep_cbLen]
      split
      · rcases completedLen_of_rd hstd' hrd with e | e <;> rw [e]
        · exact hlen
        · exact .inr rfl
      · exact hlen
  inputs _ _ _ h := ⟨h.1.congr rfl rfl rfl rfl, h.2⟩

/-- What holds of the accepted command and is kept while no `Reset` comes holds where its meaning ends. -/
theorem BusyClosed.exec {P : State → Prop} (hP : BusyClosed P) {s t : State} {i : Instr} (hstd : s.params.Standard)
    (hwf : i.WellFormed s.params) (hb : s.busy = false) (hreset : Input.reset ∉ s.inputs) (hstart : P (s.accepted i))
    (h : exec i s = .next t) : P t := by
  rw [exec_of_not_busy hb, submit_encode hstd.opcodes_nodup hwf hb] at h
  exact Host.Outcome.next.inj h ▸ hP.drive (s := s.accepted i) hreset hstart _

theorem LatchedFrame.refl (a : State) : LatchedFrame a a := ⟨rfl, rfl, rfl, rfl, rfl⟩

/-- Settles O54: the write's frame from its acceptance on. -/
theorem writeWordFrame : Obligations.WriteWordFrame := by
  intro s t a p0 p1 p2 p3 trail hstd hwf hcb hb hreset h
  have hclosed : BusyClosed (WriteFrame (s.accepted (.wr a p0 p1 p2 p3 trail))) := writeFrame_busyClosed rfl
  obtain ⟨⟨hkind, haddr, hparams, hgier, hisr⟩, hcb', hlen⟩ :=
    hclosed.exec hstd hwf hb hreset ⟨LatchedFrame.refl _, rfl, rfl⟩ h
  refine ⟨hkind, haddr.trans (accepted_wr_addr hcb), hlen.trans (accepted_cbLen s _), hparams, hgier, hisr, fun k => ?_⟩
  rw [hcb', ← hstd.opWr]
  exact read_accepted hcb _ k

/-- Settles O55: the read's frame from its acceptance on. -/
theorem readWordFrame : Obligations.ReadWordFrame := by
  intro s t a trail hstd hwf hcb hb hreset h
  have hclosed : BusyClosed (ReadFrame (s.accepted (.rd a trail))) := readFrame_busyClosed hstd rfl
  obtain ⟨⟨hkind, haddr, hparams, hgier, hisr⟩, -, hread, hlen⟩ := hclosed.exec hstd hwf hb hreset
    ⟨LatchedFrame.refl _, accepted_cb_wf hcb _, fun _ _ => rfl, .inl rfl⟩ h
  refine ⟨hkind, haddr.trans (accepted_rd_addr hcb), hparams, hgier, hisr,
    hlen.imp_left fun e => e.trans (accepted_cbLen s _), fun k hk => ?_⟩
  rw [hread k hk, ← hstd.opRd]
  exact read_accepted hcb _ k

end Sys2Proof.Machine

end

section

/-! A started command ends (R129, R164): the most micro-steps that are left at each label go down with every micro-step. -/

namespace Sys2Proof.Machine

/-! ### The micro-steps that are left -/

/-- R129: the most micro-steps of an exchange's two polls and its Data-Receive read. -/
def pollCost (p : Params) : Nat := p.txPollMax.toNat + p.rxPollMax.toNat + 1

/-- R164: the most micro-steps from the first `DAT_DTR` to the `done`. -/
def wordCost (p : Params) : Nat := p.wordBytes * (2 + pollCost p) + 3

/-- R157, R164: the most micro-steps that follow the data exchange at position `i`, to the `done`. -/
def restCost (p : Params) (k : Kind) (i : BitVec 3) : Nat := (i.toNat - (lastIdx k).toNat) * (2 + pollCost p) + 3

/-- R164: the most micro-steps that follow the exchange in progress, to the `done`. -/
def State.tailCost (s : State) : Nat := if s.step.isData then restCost s.params s.kind s.idx else wordCost s.params

/-- R164: the most micro-steps from a label to the `done`, the arbitration's own step not counted: it makes no access. -/
def State.labelCost (s : State) : Nat :=
  match s.step with
  | .idle | .irqDis | .irqDrr | .irqEn | .irqAck => transferBudget s.params
  | .ienIer => 1
  | .cfgIer => 6 + pollCost s.params + wordCost s.params
  | .cfgSsr => 5 + pollCost s.params + wordCost s.params
  | .cfgCr => 4 + pollCost s.params + wordCost s.params
  | .adrDtr => 3 + pollCost s.params + wordCost s.params
  | .adrSsr | .datDtr => 2 + pollCost s.params + s.tailCost
  | .adrCr | .datCr => 1 + pollCost s.params + s.tailCost
  | .adrPtx | .datPtx => (s.params.txPollMax.toNat - s.poll.toNat) + (s.params.rxPollMax.toNat + 1 + s.tailCost)
  | .adrPrx | .datPrx => (s.params.rxPollMax.toNat - s.poll.toNat) + (1 + s.tailCost)
  | .adrDrr | .datDrr => 1 + s.tailCost
  | .rstCr => 3
  | .rstSsr => 2
  | .rstIer => 1

theorem three_le_wordCost (p : Params) : 3 ≤ wordCost p := Nat.le_add_left 3 _

theorem three_le_restCost (p : Params) (k : Kind) (i : BitVec 3) : 3 ≤ restCost p k i := Nat.le_add_left 3 _

theorem three_le_tailCost (s : State) : 3 ≤ s.tailCost := by
  unfold State.tailCost
  split
  · exact three_le_restCost _ _ _
  · exact three_le_wordCost _

theorem transferBudget_eq (p : Params) : transferBudget p = 6 + pollCost p + wordCost p := by
  simp only [transferBudget, wordCost, pollCost]
  omega

/-- R152: the first data exchange has the whole word to go. -/
theorem restCost_firstIdx {p : Params} {k : Kind} (hp : paramsWf p) (hk : movesWord k = true) :
    2 + pollCost p + restCost p k (firstIdx p k) = wordCost p := by
  obtain ⟨-, -, hmin, hmax, -⟩ := hp
  have hword : (firstIdx p k).toNat - (lastIdx k).toNat + 1 = p.wordBytes := by
    rcases kind_of_movesWord hk with rfl | rfl <;> simp [firstIdx, lastIdx] <;> omega
  rw [restCost, wordCost, ← hword, Nat.succ_mul]
  omega

/-- R157: every exchange but the last has the next one to go. -/
theorem restCost_pred {p : Params} {k : Kind} {i : BitVec 3} (hi : idxInRange p k i = true) (hne : i ≠ lastIdx k) :
    2 + pollCost p + restCost p k (i - 1#3) = restCost p k i := by
  have hleft : (i - 1#3).toNat - (lastIdx k).toNat + 1 = i.toNat - (lastIdx k).toNat := by
    rcases kind_of_movesWord (movesWord_of_idxInRange hi) with rfl | rfl <;>
      simp [idxInRange, lastIdx] at hi hne ⊢ <;> bv_omega
  rw [restCost, restCost, ← hleft, Nat.succ_mul]
  omega

/-- R128: each iteration of a poll uses up one of the reads its bound allows, or leaves the rest of the transfer. -/
theorem pollOnce_labelCost (passes : Bool) {bound : BitVec 14} {l : Label} {s : State} {c : Nat} (hlt : s.poll < bound)
    (hstay : ∀ n, { s with poll := n }.labelCost = (bound.toNat - n.toNat) + c)
    (hnext : { s with poll := 0#14, step := l }.labelCost ≤ c) (hrst : 3 ≤ c) :
    (pollOnce passes bound l s).labelCost < s.labelCost := by
  have hs : s.labelCost = (bound.toNat - s.poll.toNat) + c := hstay s.poll
  have hlt' : s.poll.toNat < bound.toNat := hlt
  rcases pollOnce_cases passes bound l s with ⟨-, e⟩ | ⟨-, -, -, e⟩ | ⟨-, -, -, e⟩ | ⟨-, hne, e⟩ <;> rw [e, hs]
  · omega
  · show 3 < _
    omega
  · omega
  · rw [hstay]
    bv_omega

theorem datDrr_labelCost (u : Draw) {s : State} (hi : idxInRange s.params s.kind s.idx = true) :
    (datDrr u s).labelCost ≤ restCost s.params s.kind s.idx := by
  rw [datDrr_frame]
  by_cases hlast : s.idx = lastIdx s.kind
  · rw [(datDrr_position_last u s hlast).1]
    exact three_le_restCost _ _ _
  · obtain ⟨hstep, hidx⟩ := datDrr_position_next u s hlast
    rw [hstep, hidx]
    exact (restCost_pred hi hlast).le

/-- R164: each micro-step at a label of a transaction leaves fewer to come. -/
theorem labelStep_labelCost (u : Draw) {s : State} (h : s.Inv) (hown : s.step.owner = .txn) (hr : s.step ≠ .rstIer)
    (hien : s.step ≠ .ienIer) : (labelStep u s).labelCost < s.labelCost := by
  obtain ⟨hpos, -, -, -, hp⟩ := h
  have htail := three_le_tailCost s
  unfold labelStep
  cases hl : s.step with
  | idle | irqDis | irqDrr | irqEn | irqAck => simp [hl, Label.owner] at hown
  | rstIer => exact absurd hl hr
  | ienIer => exact absurd hl hien
  | adrPtx | datPtx =>
    have hlt : s.poll < s.params.txPollMax := by simp [State.positionOk, hl] at hpos; exact hpos.2
    exact pollOnce_labelCost _ (s := s.memRead32 .sr u.sr) (c := s.params.rxPollMax.toNat + 1 + s.tailCost) hlt
      (fun n => by simp [State.labelCost, State.tailCost, hl])
      (by simp [State.labelCost, State.tailCost, Label.isData, hl]; omega) (by omega)
  | adrPrx | datPrx =>
    have hlt : s.poll < s.params.rxPollMax := by simp [State.positionOk, hl] at hpos; exact hpos.2
    exact pollOnce_labelCost _ (s := s.memRead32 .sr u.sr) (c := 1 + s.tailCost) hlt
      (fun n => by simp [State.labelCost, State.tailCost, hl])
      (by simp [State.labelCost, State.tailCost, Label.isData, hl]) (by omega)
  | datDrr =>
    have hi := idxInRange_of_positionOk hpos (by rw [hl]; rfl)
    calc (datDrr u s).labelCost
      _ ≤ restCost s.params s.kind s.idx := datDrr_labelCost u hi
      _ < s.labelCost := by simp [State.labelCost, State.tailCost, Label.isData, hl]
  | adrDrr =>
    have hk : movesWord s.kind = true := by simp [State.positionOk, hl] at hpos; exact hpos.2
    have := restCost_firstIdx hp hk
    simp [State.labelCost, State.tailCost, Label.isData, hl, adrDrr]
    omega
  | adrCr | datCr => simp [State.labelCost, State.tailCost, Label.isData, hl, xCr, pollCost]; omega
  | cfgIer | cfgSsr | cfgCr | adrDtr | adrSsr | datDtr | rstCr | rstSsr =>
    simp [State.labelCost, State.tailCost, Label.isData, hl, cfgIer, cfgSsr, cfgCr, xDtr, adrSsr, rstCr, rstSsr]

/-! ### The steps of a command on its way -/

/-- Whether the block is at the end of a command or on the way to it, with no handler run before it: in a transaction, or
at `IDLE` with the command put before any request where one waits (R144). -/
def State.OnItsWay (s : State) : Prop :=
  (s.step = .idle ∧ (s.busy = true → s.params.arbOrder = .cmdFirst)) ∨ (s.busy = true ∧ s.step.owner = .txn)

/-- The most accesses that are left to the `done` of the command in flight. -/
def State.stepsLeft (s : State) : Nat := if s.busy then s.labelCost else 0

/-- The most steps that are left to the `done`, with one for the arbitration and one for each input to come. -/
def State.fuelLeft (s : State) : Nat := s.stepsLeft + s.inputs.length + if s.step = .idle then 1 else 0

/-- `t` comes from `s` with events `es`, whose accesses are among those that were left. -/
def Spends (s t : State) : Prop :=
  ∃ es, t.trace = es ++ s.trace ∧ (es.filter Event.isAccess).length + t.stepsLeft ≤ s.stepsLeft

theorem Spends.refl (s : State) : Spends s s := ⟨[], rfl, by simp⟩

theorem Spends.trans {s t r : State} (h : Spends s t) (k : Spends t r) : Spends s r := by
  obtain ⟨es, hes, hle⟩ := h
  obtain ⟨fs, hfs, hle'⟩ := k
  refine ⟨fs ++ es, by rw [hfs, hes, List.append_assoc], ?_⟩
  rw [List.filter_append, List.length_append]
  omega

/-- One step's fuel for each input to come, whatever the events so far. -/
theorem fuelLeft_inputs (s : State) (is : List Input) (n : Nat) (es : List Event) :
    { s with inputs := is, drawn := n, trace := es }.fuelLeft + s.inputs.length = s.fuelLeft + is.length := by
  show s.stepsLeft + is.length + (if s.step = .idle then 1 else 0) + _ = _
  rw [State.fuelLeft]
  omega

theorem labelCost_pos {s : State} (hown : s.step.owner = .txn) : 0 < s.labelCost := by
  unfold State.labelCost
  cases hl : s.step <;> simp [hl, Label.owner] at hown ⊢

/-- A block that has no step left to its end is at it. -/
theorem not_busy_of_fuelLeft {s : State} (h : s.OnItsWay) (hf : s.fuelLeft = 0) : s.busy = false := by
  cases hb : s.busy with
  | false => rfl
  | true =>
    rcases h with ⟨hl, -⟩ | ⟨-, hown⟩
    · simp [State.fuelLeft, hl] at hf
    · have hpos := labelCost_pos hown
      simp only [State.fuelLeft, State.stepsLeft, hb, ↓reduceIte] at hf
      omega

/-- R160, R172, R167: a label of a transaction is followed by another one, or by `IDLE` with the command ended. -/
theorem labelStep_txn (u : Draw) {s : State} (hown : s.step.owner = .txn) :
    ((labelStep u s).busy = false ∧ (labelStep u s).step = .idle) ∨
    (s.step ≠ .rstIer ∧ s.step ≠ .ienIer ∧ (labelStep u s).step.owner = .txn) := by
  unfold labelStep
  cases hl : s.step with
  | idle | irqDis | irqDrr | irqEn | irqAck => simp [hl, Label.owner] at hown
  | rstIer | ienIer => exact .inl ⟨rfl, rfl⟩
  | adrPtx | adrPrx | datPtx | datPrx =>
    refine .inr ⟨nofun, nofun, ?_⟩
    dsimp only [xPtx, xPrx]
    rcases pollOnce_cases _ _ _ (s.memRead32 .sr u.sr) with ⟨-, e⟩ | ⟨-, -, -, e⟩ | ⟨-, -, -, e⟩ | ⟨-, -, e⟩ <;> rw [e]
    · rfl
    · rfl
    · rfl
    · exact hown
  | datDrr =>
    refine .inr ⟨nofun, nofun, ?_⟩
    by_cases hlast : s.idx = lastIdx s.kind
    · exact (datDrr_position_last u s hlast).1 ▸ rfl
    · exact (datDrr_position_next u s hlast).1 ▸ rfl
  | _ => exact .inr ⟨nofun, nofun, rfl⟩

theorem labelCost_firstLabel (s : State) : { s with step := firstLabel s.kind }.labelCost ≤ transferBudget s.params := by
  rw [transferBudget_eq]
  cases hk : s.kind <;> simp [firstLabel, State.labelCost] <;> omega

/-- R145, R164: the arbitration's step makes no access and uses its own fuel. -/
theorem start_progress {s : State} (hb : s.busy = true) (hl : s.step = .idle) :
    { s with step := firstLabel s.kind }.OnItsWay ∧ Spends s { s with step := firstLabel s.kind } ∧
    { s with step := firstLabel s.kind }.fuelLeft < s.fuelLeft := by
  have hs : s.stepsLeft = transferBudget s.params := by rw [State.stepsLeft, if_pos hb, State.labelCost, hl]
  have ht : { s with step := firstLabel s.kind }.stepsLeft ≤ transferBudget s.params :=
    (if_pos hb).trans_le (labelCost_firstLabel s)
  have hne : firstLabel s.kind ≠ .idle := by cases s.kind <;> simp [firstLabel]
  refine ⟨.inr ⟨hb, by cases s.kind <;> rfl⟩, ⟨[], rfl, ?_⟩, ?_⟩
  · rw [hs]
    exact (Nat.zero_add _).trans_le ht
  · rw [State.fuelLeft, State.fuelLeft, if_pos hl, if_neg hne, hs]
    exact Nat.lt_succ_of_le (Nat.add_le_add_right ht _)

/-- R22, R164: a micro-step of a transaction makes one access of those that are left. -/
theorem txn_progress (u : Draw) {s : State} (hinv : s.Inv) (hb : s.busy = true) (hown : s.step.owner = .txn) :
    (labelStep u s).OnItsWay ∧ Spends s (labelStep u s) ∧
    ((labelStep u s).busy = true → (labelStep u s).fuelLeft < s.fuelLeft) := by
  obtain ⟨hidle, -, -, -, hack⟩ := (Label.owner_eq_txn_iff _).1 hown
  have hone : ((labelEvents u s).filter Event.isAccess).length = 1 := by
    rw [labelEvents_accessCount, if_neg (by simp [hidle, hack])]
  have htrace := (labelStep_emits u s).trace
  have hs : s.stepsLeft = s.labelCost := if_pos hb
  rcases labelStep_txn u hown with ⟨hend, hl⟩ | ⟨hr, hien, hown'⟩
  · have ht : (labelStep u s).stepsLeft = 0 := if_neg (by simp [hend])
    have hpos := labelCost_pos hown
    exact ⟨.inl ⟨hl, by simp [hend]⟩, ⟨_, htrace, by omega⟩, by simp [hend]⟩
  · have hb' : (labelStep u s).busy = true := (labelStep_status_busy u hr hien).2.trans hb
    have ht : (labelStep u s).stepsLeft = (labelStep u s).labelCost := if_pos hb'
    have hless := labelStep_labelCost u hinv hown hr hien
    obtain ⟨-, -, hinputs, -⟩ := labelStep_latched u s
    obtain ⟨hidle', -⟩ := (Label.owner_eq_txn_iff _).1 hown'
    refine ⟨.inr ⟨hb', hown'⟩, ⟨_, htrace, by omega⟩, fun _ => ?_⟩
    rw [State.fuelLeft, State.fuelLeft, if_neg hidle, if_neg hidle', hinputs]
    omega

theorem labelStep_progress (u : Draw) {s : State} (hinv : s.Inv) (hb : s.busy = true) (h : s.OnItsWay) :
    (labelStep u s).OnItsWay ∧ Spends s (labelStep u s) ∧
    ((labelStep u s).busy = true → (labelStep u s).fuelLeft < s.fuelLeft) := by
  rcases h with ⟨hl, harb⟩ | ⟨-, hown⟩
  · have hgo : labelStep u s = { s with step := firstLabel s.kind } := by
      rw [← idleStep_starts (u := u) hb (commandWins_eq_true (.inr (.inl (harb hb))))]
      simp only [labelStep, hl]
    obtain ⟨hway, hspends, hfuel⟩ := start_progress hb hl
    rw [hgo]
    exact ⟨hway, hspends, fun _ => hfuel⟩
  · exact txn_progress u hinv hb hown

/-- R129, R164: every step of R15 keeps a command on its way and uses fuel: a host event its input, a micro-step one of the
micro-steps that are left. A `Reset` ends it. -/
theorem advance_progress {s t : State} (hinv : s.Inv) (hb : s.busy = true) (h : s.OnItsWay) (ha : advance s = .next t) :
    t.OnItsWay ∧ Spends s t ∧ (t.busy = true → t.fuelLeft < s.fuelLeft) := by
  rcases advance_busy_cases hb ha with ⟨x, rest, e, hi, hacc, rfl⟩ | ⟨rest, -, rfl⟩ | ⟨u, rest, n, hsuf, -, rfl⟩
  · refine ⟨h, ⟨[e], rfl, ?_⟩, fun _ => ?_⟩
    · simp only [List.filter_cons, hacc, List.filter_nil]
      exact (Nat.zero_add _).le
    · have hfuel := fuelLeft_inputs s rest s.drawn (e :: s.trace)
      rw [hi, List.length_cons] at hfuel
      omega
  · exact ⟨.inl ⟨rfl, nofun⟩, ⟨[], rfl, Nat.zero_le _⟩, nofun⟩
  · obtain ⟨hway, hspends, hfuel⟩ := labelStep_progress u (s := { s with inputs := rest, drawn := n }) hinv hb h
    refine ⟨hway, hspends, fun hb' => (hfuel hb').trans_le ?_⟩
    have hlen := hsuf.length_le
    have hsame := fuelLeft_inputs s rest n s.trace
    omega

/-- R164: with fuel for the steps that are left, a command on its way runs to its end. -/
theorem drive_ends (n : Nat) : ∀ s : State, s.Inv → s.OnItsWay → s.fuelLeft ≤ n →
    (drive n s).busy = false ∧ (drive n s).step = .idle ∧ Spends s (drive n s) := by
  have ended : ∀ s : State, s.OnItsWay → s.busy = false → s.step = .idle := by
    rintro s (⟨hl, -⟩ | ⟨hb, -⟩) hb'
    · exact hl
    · rw [hb] at hb'; cases hb'
  induction n with
  | zero =>
    intro s _ h hn
    have hb := not_busy_of_fuelLeft h (Nat.le_zero.1 hn)
    exact ⟨hb, ended s h hb, Spends.refl s⟩
  | succ n ih =>
    intro s hinv h hn
    cases hb : s.busy with
    | false =>
      rw [drive_of_idle hb]
      exact ⟨hb, ended s h hb, Spends.refl s⟩
    | true =>
      obtain ⟨t, ha⟩ := exists_advance_of_inv hinv
      obtain ⟨hway, hspends, hfuel⟩ := advance_progress hinv hb h ha
      have hdrive : drive (n + 1) s = drive n t := by simp [drive, hb, ha]
      rw [hdrive]
      cases hbt : t.busy with
      | false =>
        rw [drive_of_idle hbt]
        exact ⟨hbt, ended t hway hbt, hspends⟩
      | true =>
        have hless := hfuel hbt
        obtain ⟨hend, hl, hspends'⟩ := ih t (inv_stepClosed.advance hinv ha) hway (by omega)
        exact ⟨hend, hl, hspends.trans hspends'⟩

/-- R144, R164: the same where the next micro-step's arbitration lets the command go, whatever `ARB_ORDER` is. -/
theorem drive_ends_of_start {s : State} {u : Draw} {rest : List Input} (hinv : s.Inv) (hb : s.busy = true)
    (hl : s.step = .idle) (hi : s.inputs = .tick u :: rest) (hw : commandWins s.params.arbOrder u = true) {n : Nat}
    (hn : s.fuelLeft ≤ n + 1) :
    (drive (n + 1) s).busy = false ∧ (drive (n + 1) s).step = .idle ∧ Spends s (drive (n + 1) s) := by
  have hstart : labelStep u { s with inputs := rest } = { s with inputs := rest, step := firstLabel s.kind } := by
    rw [← idleStep_starts (s := { s with inputs := rest }) hb hw]
    simp only [labelStep, hl]
  have hinv' := labelStep_inv u (s := { s with inputs := rest }) hinv
  have hdrive := Drives.label hb hi (hasRule_of_positionOk hinv.1) hstart
  obtain ⟨hway, hspends, hless⟩ := start_progress (s := { s with inputs := rest }) hb hl
  have hfuel := fuelLeft_inputs s rest s.drawn s.trace
  rw [hi, List.length_cons] at hfuel
  have hrest : { s with inputs := rest }.fuelLeft ≤ n + 1 := by omega
  rw [hstart] at hinv'
  obtain ⟨hend, hidle, hspends'⟩ := drive_ends n _ hinv' hway (Nat.le_of_lt_succ (hless.trans_le hrest))
  rw [Nat.add_comm, hdrive n]
  exact ⟨hend, hidle, hspends.trans hspends'⟩

/-! ### A started command -/

/-- R143: an accepted command is within the invariant. -/
theorem accepted_inv {s : State} {i : Instr} (hwf : i.WellFormed s.params) (h : s.Inv) (hb : s.busy = false) :
    (s.accepted i).Inv :=
  accept_inv (loadCommand_inv h ((encode_length _ _).trans_le hwf)) hb i.kind

/-- R164: a command accepted at `IDLE` has the whole transfer to go. -/
theorem accepted_stepsLeft {s : State} {i : Instr} (hl : s.step = .idle) :
    (s.accepted i).stepsLeft = transferBudget s.params := by
  have hl' : (s.accepted i).step = .idle := hl
  have hb : (s.accepted i).busy = true := rfl
  rw [State.stepsLeft, if_pos hb, State.labelCost, hl']
  rfl

theorem accepted_fuelLeft_le {s : State} {i : Instr} (hl : s.step = .idle) : (s.accepted i).fuelLeft ≤ commandBudget s := by
  have hl' : (s.accepted i).step = .idle := hl
  have hi : (s.accepted i).inputs = s.inputs := rfl
  rw [State.fuelLeft, if_pos hl', accepted_stepsLeft hl, hi, commandBudget]
  omega

/-- R144, R164: an accepted command that the arbitration lets go runs to its end within the budget. -/
theorem drive_accepted_ends {s : State} {i : Instr} (hwf : i.WellFormed s.params) (hinv : s.Inv) (hb : s.busy = false)
    (hl : s.step = .idle) (hgo : s.params.arbOrder = .cmdFirst ∨ ∃ u rest, s.inputs = .tick u :: rest ∧ s.Ready u) :
    (drive (commandBudget s) (s.accepted i)).busy = false ∧ (drive (commandBudget s) (s.accepted i)).step = .idle ∧
    Spends (s.accepted i) (drive (commandBudget s) (s.accepted i)) := by
  have hinv' := accepted_inv hwf hinv hb
  have hfuel := accepted_fuelLeft_le (i := i) hl
  rcases hgo with harb | ⟨u, rest, hi, hready⟩
  · exact drive_ends _ _ hinv' (.inl ⟨hl, fun _ => harb⟩) hfuel
  · obtain ⟨n, hn⟩ := Nat.exists_eq_add_one_of_ne_zero (by rw [commandBudget]; omega : commandBudget s ≠ 0)
    have hw : commandWins s.params.arbOrder u = true := commandWins_of_ready hready
    rw [hn] at hfuel ⊢
    exact drive_ends_of_start hinv' rfl hl hi hw hfuel

/-- Settles O51: the budget covers the arbitration's step, the micro-steps of the longest transfer and one step for each
input; each micro-step makes at most one access. -/
theorem startedCommandTerminates : Obligations.StartedCommandTerminates := by
  intro s i hwf hinv hb hl hgo
  have ⟨_, _, _, _, hp⟩ := hinv
  have ⟨_, _, _, _, _, _, hop⟩ := hp
  obtain ⟨hend, hidle, es, htrace, hle⟩ := drive_accepted_ends hwf hinv hb hl hgo
  refine ⟨_, exec_of_not_busy hb i, ?_⟩
  rw [submit_encode hop hwf hb]
  refine ⟨hend, hidle, fun hword htx hrx => ⟨es ++ [.response .accepted], by rw [htrace]; simp [State.accepted], ?_⟩⟩
  have hbudget : transferBudget s.params = 55022 := by simp [transferBudget, hword, htx, hrx]
  rw [accepted_stepsLeft hl, hbudget] at hle
  rw [List.filter_append, List.length_append]
  exact (Nat.le_add_right _ _).trans hle

end Sys2Proof.Machine

end
